-- ==== Sys2Proof/Word.lean ====
section
/-! DEFINITION. The word types of RC4KE (00_scope.md R8, R9): every value is unsigned, `+` on a byte is the spec's
`+8` (modulo 256), `+` on a word is modulo 2^32, `^^^` is bitwise exclusive OR. -/

namespace Sys2Proof

/-- An entry of `S` or `K`, an index, a data or key byte: 8 bits (R7). -/
abbrev Byte := BitVec 8

/-- A command word, a register as the host reads it, the data of a bus access: 32 bits (R7, R36). -/
abbrev Word := BitVec 32

/-- A byte offset inside the 4096-byte register window (R51, R56 `req_addr`). -/
abbrev Offset := BitVec 12

end Sys2Proof
end

