-- ==== Sys2Proof/Syntax.lean ====
section
/-! DEFINITION. The eight commands (30_encoding.md R84), the fields of the one command format (R80), the names of what
makes a word no command (R86), and the lines of the assembler (R89). -/

namespace Sys2Proof

/-- One command of RC4KE, one constructor for each row of spec/opcode_table.json (R84). The operand is the unsigned byte
of the `DATA` field, used as is (R82). -/
inductive Instr where
  | nop
  | reset
  | clrerr
  | clrkey
  | keyb (b : Byte)
  | ksa
  | ks
  | xor (d : Byte)
deriving DecidableEq, Repr

/-- The three fields of the format `CMD32` (R80). -/
structure CommandFields where
  /-- `OP`, bits [7:0]. -/
  op : Byte
  /-- `DATA`, bits [15:8]. -/
  data : Byte
  /-- `RSV`, bits [31:16]. -/
  rsv : BitVec 16
deriving DecidableEq, Repr

/-- Why the decoder reads no command (R85, R86). -/
inductive Illegal where
  /-- A bit of `RSV` is 1. -/
  | reservedBits
  /-- `OP` is none of the eight values of R84. -/
  | reservedOpcode
  /-- `DATA` is not 0 on a command without an operand. -/
  | operandNotZero
  /-- Fewer than four byte lanes: never a word on the bus, where every access is a whole word (R57). -/
  | shortWord
deriving DecidableEq, Repr

/-- The mnemonics of R84, as the assembler names them. -/
inductive Mnemonic where
  | NOP | RESET | CLRERR | CLRKEY | KEYB | KSA | KS | XOR
deriving DecidableEq, Repr

/-- The three ways R89 writes the operand byte. -/
inductive AsmOperand where
  /-- A hexadecimal number, by its value. -/
  | hex (n : Nat)
  /-- A decimal number, by its value. -/
  | dec (n : Nat)
  /-- A character in single quotes, standing for its ASCII code. -/
  | quoted (c : Char)
deriving DecidableEq, Repr

/-- One command line of the assembler (R89): a mnemonic and at most one operand. -/
structure AsmLine where
  mnemonic : Mnemonic
  operand  : Option AsmOperand
deriving DecidableEq, Repr

end Sys2Proof
end

