-- ==== Sys2Proof/WellFormed.lean ====
section
/-! DEFINITION. What is a legal command word, by the rule that says it without the decoder (R86), and what is an assembly
line that stands for a command (R89). Every value of `Instr` is a command: its operand is a byte by its type (R82). -/

namespace Sys2Proof

/-- The opcodes of the commands without an operand (R85). -/
def opcodesWithoutOperand : List Byte := [0x00, 0x01, 0x02, 0x03, 0x10, 0x20]

/-- The opcodes of the commands whose operand is `DATA`: KEYB and XOR (R84). -/
def opcodesWithOperand : List Byte := [0x04, 0x21]

/-- R86: no `RSV` bit is 1, `OP` is one of the eight values, and `DATA` is 0 on a command without an operand. -/
def CommandFields.legal (f : CommandFields) : Bool :=
  f.rsv == 0 && (opcodesWithOperand.contains f.op || opcodesWithoutOperand.contains f.op && f.data == 0)

/-- The number an operand stands for (R89). -/
def AsmOperand.value : AsmOperand → Nat
  | .hex n => n
  | .dec n => n
  | .quoted c => c.toNat

/-- R89: a number is 0..255, a quoted character is an ASCII character (code below 128, log 12). -/
def AsmOperand.wellFormed : AsmOperand → Bool
  | .hex n => n < 256
  | .dec n => n < 256
  | .quoted c => c.toNat < 128

/-- R89: KEYB and XOR are followed by one operand, the other six by none. -/
def Mnemonic.takesOperand : Mnemonic → Bool
  | .NOP => false
  | .RESET => false
  | .CLRERR => false
  | .CLRKEY => false
  | .KEYB => true
  | .KSA => false
  | .KS => false
  | .XOR => true

/-- An assembly line that is a command and no assembly error (R89). -/
def AsmLine.wellFormed (l : AsmLine) : Bool :=
  match l.operand with
  | none => !l.mnemonic.takesOperand
  | some o => l.mnemonic.takesOperand && o.wellFormed

end Sys2Proof
end

