-- ==== Sys2Proof/Decode.lean ====
section
/-! DEFINITION. The decoder of command words (30_encoding.md R85), total on all 2^32 words and the same in every state
(R88), and the encoder (R80, R84, R89). -/

namespace Sys2Proof

/-- The fields of a command word: `OP` [7:0], `DATA` [15:8], `RSV` [31:16] (R80). -/
def CommandFields.ofWord (w : Word) : CommandFields :=
  { op := w.extractLsb' 0 8, data := w.extractLsb' 8 8, rsv := w.extractLsb' 16 16 }

/-- The decoder of R85 on the fields, its tests in the order R85 gives them. -/
def CommandFields.decode (f : CommandFields) : Except Illegal Instr :=
  if f.rsv ≠ 0 then .error .reservedBits
  else if f.op = 0x04 then .ok (.keyb f.data)
  else if f.op = 0x21 then .ok (.xor f.data)
  else if f.op = 0x00 then noOperand f.data .nop
  else if f.op = 0x01 then noOperand f.data .reset
  else if f.op = 0x02 then noOperand f.data .clrerr
  else if f.op = 0x03 then noOperand f.data .clrkey
  else if f.op = 0x10 then noOperand f.data .ksa
  else if f.op = 0x20 then noOperand f.data .ks
  else .error .reservedOpcode
where
  /-- `if d != 0: return ILLEGAL` (R85). -/
  noOperand (d : Byte) (i : Instr) : Except Illegal Instr :=
    if d ≠ 0 then .error .operandNotZero else .ok i

/-- The command a word written to `CMD` encodes (R85), or why it encodes none (R86). -/
def decode (w : Word) : Except Illegal Instr :=
  (CommandFields.ofWord w).decode

/-- The byte lanes of a word, lane 0 first: lane `k` carries bits [8k+7:8k] (R57). -/
def lanesOf (w : Word) : List Byte :=
  [w.extractLsb' 0 8, w.extractLsb' 8 8, w.extractLsb' 16 8, w.extractLsb' 24 8]

/-- The word that four byte lanes carry (R57). -/
def wordOfLanes (b0 b1 b2 b3 : Byte) : Word := b3 ++ b2 ++ b1 ++ b0

/-- Decoding from byte lanes, with the lanes that are left: each command is exactly one word (R88). -/
def decodeBytes : List Byte → Except Illegal (Instr × List Byte)
  | b0 :: b1 :: b2 :: b3 :: rest => (decode (wordOfLanes b0 b1 b2 b3)).map fun i => (i, rest)
  | _ => .error .shortWord

/-- What the decoder reads from an instruction of `nbits` bits numbered as spec/opcode_table.json numbers them. A command
is one 32-bit word (R88), so a value that needs more bits is none. -/
def decodeTableWord (nbits w : Nat) : Option Instr :=
  if w % 2 ^ nbits < 2 ^ 32 then (decode (BitVec.ofNat 32 (w % 2 ^ nbits))).toOption else none

/-- The `OP` value of a command (R84). -/
def Instr.opcode : Instr → Byte
  | .nop => 0x00
  | .reset => 0x01
  | .clrerr => 0x02
  | .clrkey => 0x03
  | .keyb _ => 0x04
  | .ksa => 0x10
  | .ks => 0x20
  | .xor _ => 0x21

/-- The `DATA` value of a command: 0 where it has no operand (R84). -/
def Instr.data : Instr → Byte
  | .nop => 0
  | .reset => 0
  | .clrerr => 0
  | .clrkey => 0
  | .keyb b => b
  | .ksa => 0
  | .ks => 0
  | .xor d => d

/-- `enc(op, d) = zext_32({d[7:0], op[7:0]})` (R89). -/
def enc (op d : Byte) : Word := (d ++ op).setWidth 32

/-- The word of a command (R84, R89). -/
def encode (i : Instr) : Word := enc i.opcode i.data

end Sys2Proof
end

