-- ==== Sys2Proof/Config.lean ====
section
/-! DEFINITION. What an implementation or its platform fixes, and the free values: constants without a body, so that
nothing can be proved about which value they have. -/

namespace Sys2Proof

/-- The number of the 4096-byte page at which the platform places the register window: the OPEN parameter `RC4_BASE`
of R7 and R51, given as its page so that the base is 4096-aligned (log 9). -/
opaque Config.rc4Page : Nat

/-- `RC4_BASE`: 4096-byte aligned (R51). -/
def Config.rc4Base : Nat := 4096 * Config.rc4Page

/-- `T_CMD`, the OPEN latency of a command (R7, R242, U5). No rule depends on it and nothing reads it (log 8). -/
opaque Config.tCmd : Word → Nat

/-- `T_RST`, the OPEN time from reset deassertion to the first accepted access (R7, R230, U6). No rule depends on it and
nothing reads it (log 8). -/
opaque Config.tRst : Nat

/-- FREE VALUE. Entry `n` of the key buffer after the reset input, one draw for each value of the counter
`State.draws` (R47, U3: "the model draws `K` freely"; log 3). -/
opaque Config.keyAfterReset : Nat → Byte → Byte

/-- FREE VALUE. Whether the access in flight when the reset input falls took effect before the reset (R231, U7; log 5). -/
opaque Config.inFlightTakesEffect : Nat → Bool

end Sys2Proof
end

