-- ==== Sys2Proof/Machine/Table.lean ====
section
/-! DEFINITION. The 256-entry byte arrays `S` and `K` (10_state.md R21, R23, R35) and what commands do to them: reading
and writing an entry (00_scope.md R10), `swap` (R11), the identity, and the rounds of the key schedule (41_ksa.md R120). -/

namespace Sys2Proof.Machine

/-- An array of 256 entries of 8 bits, indexed 0..255 (R21, R23). -/
abbrev Table := Vector Byte 256

/-- `S[n]`: entry `n` (R10). -/
def Table.entry (T : Table) (n : Byte) : Byte := T[n.toNat]'n.isLt

/-- `S[n] <- v` (R10). -/
def Table.put (T : Table) (n v : Byte) : Table := T.set n.toNat v n.isLt

/-- `swap(S[a], S[b])`: `tmp <- S[a]; S[a] <- S[b]; S[b] <- tmp` (R11). -/
def Table.swap (T : Table) (a b : Byte) : Table := (T.put a (T.entry b)).put b (T.entry a)

/-- The indices 0..255 in ascending order (R120). -/
def indices : List Byte := (List.range 256).map (BitVec.ofNat 8)

/-- The table whose entry `n` is `f n`. -/
def Table.ofFun (f : Byte → Byte) : Table := ⟨(indices.map f).toArray, by simp [indices]⟩

/-- `S[n] = n` for every `n`: the identity permutation (R46, R120). -/
def Table.identity : Table := Table.ofFun fun n => n

/-- A free draw of the key buffer, as the reset input leaves it (R47; log 3). -/
def Table.freeKey (draw : Nat) : Table := Table.ofFun (Config.keyAfterReset draw)

/-- The effective key: `K[n mod KEYLEN]` (40_key_load.md R103). -/
def effectiveKey (K : Table) (keylen : BitVec 9) (n : Byte) : Byte :=
  K.entry (BitVec.ofNat 8 (n.toNat % keylen.toNat))

/-- One iteration of the second loop of R120 on `S` and the running `j`:
`j <- j +8 S[i] +8 K[i mod KEYLEN]; swap(S[i], S[j])`. -/
def ksaRound (K : Table) (keylen : BitVec 9) (p : Table × Byte) (i : Byte) : Table × Byte :=
  let j := p.2 + p.1.entry i + effectiveKey K keylen i
  (p.1.swap i j, j)

/-- The permutation the two loops of R120 leave: the identity, then one round for each `i` in 0..255, ascending, from
`j = 0`. Irreducible, so that no proof unfolds 256 rounds by accident. -/
@[irreducible] def keySchedule (K : Table) (keylen : BitVec 9) : Table :=
  (indices.foldl (ksaRound K keylen) (Table.identity, 0)).1

end Sys2Proof.Machine
end

