-- ==== Sys2Proof/Machine/State.lean ====
section
/-! DEFINITION. The state of RC4KE (10_state.md R20), the bus accesses it answers (20_memory.md R52, R56), the inputs and
responses of a run, and the state after reset (R46). -/

namespace Sys2Proof.Machine

/-- `PHASE`, 1 bit (R26). -/
inductive Phase where
  /-- 0: no successful KSA since reset, or the last KSA failed. -/
  | UNKEYED
  /-- 1: `S`, `I` and `J` hold a generator state that descends from a successful KSA. -/
  | READY
deriving DecidableEq, Repr

/-- The size of a bus access: `req_size` 0 byte, 1 halfword, 2 word, 3 reserved (R56). -/
inductive AccessSize where
  | byte
  | halfword
  | word
  | reserved
deriving DecidableEq, Repr

/-- One bus access of the host, as the engine sees it: direction, size and byte offset within the window (R13, R52, R56). -/
inductive Access where
  | read (off : Offset) (size : AccessSize)
  | write (off : Offset) (size : AccessSize) (data : Word)
deriving DecidableEq, Repr

/-- The response to one access: `rsp_rdata` and `rsp_err` (R56). -/
structure Response where
  /-- Read data, 0 on a write or a refused access. -/
  rdata : Word
  /-- True when the access was refused (bus error). -/
  err   : Bool
deriving DecidableEq, Repr

/-- What the outside does next to the engine (R14, R231). -/
inductive Input where
  /-- The host presents an access. -/
  | access (a : Access)
  /-- The reset input, between two accesses (R231). -/
  | reset
  /-- The reset input falls while `a` is in progress: `a` is abandoned (R231; log 5). -/
  | resetDuring (a : Access)
deriving DecidableEq, Repr

/-- The registers a host can read (R36). `CMD` is not among them: it holds no value (R37). -/
inductive Register where
  | STATUS
  | DOUT
  | KEYLEN
  | INDEX
  | COUNT
  | ID
  | SWIN (n : Byte)
deriving DecidableEq, Repr

/-- The result code of a command (R29). -/
inductive Result where
  | OK
  | INVALID_KEY
  | NOT_KEYED
  | ILLEGAL_CMD
deriving DecidableEq, Repr

/-- The errors a command can raise (R201). -/
inductive CommandError where
  /-- A KSA with `KEYLEN = 0` (R203). -/
  | INVALID_KEY
  /-- A KS or XOR in `UNKEYED` (R204). -/
  | NOT_KEYED
  /-- An illegal word written to `CMD` (R205). -/
  | ILLEGAL_CMD
deriving DecidableEq, Repr

/-- The state. The fields up to `E_BUS` are the engine's, exactly those of R20; the last three are the model's own (the bus
side of a run, and the counter of free draws). -/
structure State where
  /-- The permutation (R21). -/
  S : Table
  /-- The key buffer (R23). -/
  K : Table
  /-- Number of key bytes loaded, 0..256 (R24). -/
  KEYLEN : BitVec 9
  /-- Index `i` (R25). -/
  I : Byte
  /-- Index `j` (R25). -/
  J : Byte
  /-- `UNKEYED` or `READY` (R26). -/
  PHASE : Phase
  /-- Last output byte (R27). -/
  DOUT : Byte
  /-- Keystream bytes since the last successful KSA or reset, modulo 2^32 (R28). -/
  COUNT : Word
  /-- Result code of the last command (R29). -/
  LASTRES : BitVec 4
  /-- Sticky: a KSA found `KEYLEN = 0` (R30, R38). -/
  E_INVKEY : Bool
  /-- Sticky: a KS or XOR found `PHASE = UNKEYED` (R30, R38). -/
  E_NOTKEYED : Bool
  /-- Sticky: a command word was not legal (R30, R38). -/
  E_ILLCMD : Bool
  /-- Sticky: a bus access was refused (R30, R38). -/
  E_BUS : Bool
  /-- MODEL's own: the inputs not yet presented, next first, in the order the engine accepts them (R63, R64; log 1). -/
  pending : List Input
  /-- MODEL's own: the responses given so far, oldest first (R56, R243; log 2). -/
  responses : List Response
  /-- MODEL's own: how many free draws have been taken (log 4). -/
  draws : Nat
deriving DecidableEq, Repr

/-- Why a step stops with a fault. There is no such reason: "No error stops the engine" (60_exceptions.md R200), and no
behaviour of the engine is `stuck` (93_implementation_defined.md). Errors are next states (log 11). -/
inductive Fault where
deriving DecidableEq, Repr

/-- Why an instruction has no meaning in the model. -/
inductive Refusal where
  /-- Raised by an arm of `exec` for a command whose meaning is not written yet; safe, the run stops there. No arm raises
  it: all eight commands have their meaning. -/
  | notModelled (mnemonic : String)
deriving DecidableEq, Repr

/-- The state after reset (R46): `S` the identity, every register 0, `PHASE` `UNKEYED`, the flags 0, and `K` a free draw
(R47; log 3). Nothing is pending and no response was given (logs 1, 2). -/
def State.reset : State where
  S := Table.identity
  K := Table.freeKey 0
  KEYLEN := 0
  I := 0
  J := 0
  PHASE := .UNKEYED
  DOUT := 0
  COUNT := 0
  LASTRES := 0
  E_INVKEY := false
  E_NOTKEYED := false
  E_ILLCMD := false
  E_BUS := false
  pending := []
  responses := []
  draws := 1

end Sys2Proof.Machine
end

