-- ==== Sys2Proof/Machine/Flags.lean ====
section
/-! DEFINITION. The result codes, the sticky error flags and the words the host reads: every flag computation of the spec
(10_state.md R29, R30, R38 to R45; 60_exceptions.md R202 to R205). -/

namespace Sys2Proof.Machine

/-- The code of a result in `LASTRES` (R29, R202 to R205). -/
def Result.code : Result → BitVec 4
  | .OK => 0
  | .INVALID_KEY => 1
  | .NOT_KEYED => 2
  | .ILLEGAL_CMD => 3

/-- `code(E)` (R201). -/
def CommandError.code : CommandError → BitVec 4
  | .INVALID_KEY => Result.INVALID_KEY.code
  | .NOT_KEYED => Result.NOT_KEYED.code
  | .ILLEGAL_CMD => Result.ILLEGAL_CMD.code

/-- `flag(E) <- 1` (R201): the one sticky flag of the error (R203 to R205). -/
def setFlag (e : CommandError) (s : State) : State :=
  match e with
  | .INVALID_KEY => { s with E_INVKEY := true }
  | .NOT_KEYED => { s with E_NOTKEYED := true }
  | .ILLEGAL_CMD => { s with E_ILLCMD := true }

/-- The four sticky flags to 0 (R171, R172). -/
def clearFlags (s : State) : State :=
  { s with E_INVKEY := false, E_NOTKEYED := false, E_ILLCMD := false, E_BUS := false }

/-- The bit of `PHASE`, which `STATUS.KEYED` shows (R26, R38). -/
def Phase.bit : Phase → BitVec 1
  | .UNKEYED => 0
  | .READY => 1

/-- `STATUS = zext_32({E_BUS, E_ILLCMD, E_NOTKEYED, E_INVKEY, LASTRES[3:0], 0b000, PHASE})` (R38). -/
def statusWord (s : State) : Word :=
  (BitVec.ofBool s.E_BUS ++ BitVec.ofBool s.E_ILLCMD ++ BitVec.ofBool s.E_NOTKEYED ++ BitVec.ofBool s.E_INVKEY
    ++ s.LASTRES ++ (0 : BitVec 3) ++ s.PHASE.bit).setWidth 32

/-- `INDEX = zext_32({J, I})` (R41). -/
def indexWord (s : State) : Word := (s.J ++ s.I).setWidth 32

/-- The constant of the `ID` register (R43). -/
def idWord : Word := 0x52433401

/-- What a read of a register gives (R38 to R44). -/
def Register.value (r : Register) (s : State) : Word :=
  match r with
  | .STATUS => statusWord s
  | .DOUT => s.DOUT.setWidth 32
  | .KEYLEN => s.KEYLEN.setWidth 32
  | .INDEX => indexWord s
  | .COUNT => s.COUNT
  | .ID => idWord
  | .SWIN n => (s.S.entry n).setWidth 32

end Sys2Proof.Machine
end

