-- ==== Sys2Proof/Machine/Operands.lean ====
section
/-! DEFINITION. The forms an operand or an access is written in: the assembler's operand byte (30_encoding.md R82, R89), the
request ports of the bus (20_memory.md R56) and the host's addresses (00_scope.md R13, 20_memory.md R51). -/

namespace Sys2Proof.Machine

/-- The byte an assembler operand stands for (R89); none where it is an assembly error. -/
def operandByte (o : AsmOperand) : Option Byte :=
  if o.wellFormed then some (BitVec.ofNat 8 o.value) else none

/-- The command of an assembly line (R89); none where the line is an assembly error, which is no command. -/
def assemble (l : AsmLine) : Option Instr :=
  match l.mnemonic, l.operand with
  | .NOP, none => some .nop
  | .RESET, none => some .reset
  | .CLRERR, none => some .clrerr
  | .CLRKEY, none => some .clrkey
  | .KEYB, some o => (operandByte o).map .keyb
  | .KSA, none => some .ksa
  | .KS, none => some .ks
  | .XOR, some o => (operandByte o).map .xor
  | _, _ => none

/-- The letters of a mnemonic, upper case (R89). -/
def mnemonicLetters : Mnemonic → List Char
  | .NOP => ['N', 'O', 'P']
  | .RESET => ['R', 'E', 'S', 'E', 'T']
  | .CLRERR => ['C', 'L', 'R', 'E', 'R', 'R']
  | .CLRKEY => ['C', 'L', 'R', 'K', 'E', 'Y']
  | .KEYB => ['K', 'E', 'Y', 'B']
  | .KSA => ['K', 'S', 'A']
  | .KS => ['K', 'S']
  | .XOR => ['X', 'O', 'R']

/-- The value of a digit, hexadecimal digits in either case (log 12). -/
def digitValue (c : Char) : Option Nat :=
  if 48 ≤ c.toNat ∧ c.toNat ≤ 57 then some (c.toNat - 48)
  else if 65 ≤ c.toNat ∧ c.toNat ≤ 70 then some (c.toNat - 55)
  else if 97 ≤ c.toNat ∧ c.toNat ≤ 102 then some (c.toNat - 87)
  else none

/-- The digits of a number in a base, most significant first, after the value `v` of those before them. -/
def digitsValue (base v : Nat) : List Char → Option Nat
  | [] => some v
  | c :: rest => (digitValue c).bind fun d => if d < base then digitsValue base (v * base + d) rest else none

/-- A decimal number, or a hexadecimal one after `0x` in lower case, of any number of digits (R89; log 12). -/
def readNumber : List Char → Option AsmOperand
  | [] => none
  | [c] => (digitsValue 10 0 [c]).map .dec
  | c :: x :: rest =>
    if c = '0' ∧ x = 'x' then if rest = [] then none else (digitsValue 16 0 rest).map .hex
    else (digitsValue 10 0 (c :: x :: rest)).map .dec

/-- The single quote, code 39. -/
def quoteChar : Char := Char.ofNat 39

/-- One operand: a character in single quotes (the quote itself among them, log 12), or a number (R89). -/
def readOperand (cs : List Char) : Option AsmOperand :=
  match cs with
  | [q, c, q'] => if q = quoteChar ∧ q' = quoteChar then some (.quoted c) else readNumber cs
  | _ => readNumber cs

/-- The mnemonics in the order of R84. -/
def mnemonics : List Mnemonic := [.NOP, .RESET, .CLRERR, .CLRKEY, .KEYB, .KSA, .KS, .XOR]

/-- An assembly line from its text: the mnemonic, then nothing, or spaces and one operand (R89). DESIGN CHOICE (log 12),
where R89 is silent on spaces: one or more separate mnemonic and operand, spaces after a mnemonic without an operand are
ignored (`NOP ` is NOP), and a space before the mnemonic or after the operand makes the line an assembly error. -/
def readLine (cs : List Char) : Option AsmLine :=
  let word := cs.takeWhile (fun c => c ≠ ' ')
  let rest := (cs.dropWhile (fun c => c ≠ ' ')).dropWhile (fun c => c = ' ')
  (mnemonics.find? fun m => mnemonicLetters m = word).bind fun m =>
    if rest = [] then some { mnemonic := m, operand := none }
    else (readOperand rest).map fun o => { mnemonic := m, operand := some o }

/-- The command of a line of text (R89); none where it is an assembly error. -/
def assembleText (cs : List Char) : Option Instr := (readLine cs).bind assemble

/-- The access size that `req_size` names (R56). -/
def AccessSize.ofReqSize (req_size : BitVec 2) : AccessSize :=
  if req_size = 0 then .byte else if req_size = 1 then .halfword else if req_size = 2 then .word else .reserved

/-- The access that the request ports present (R56): `req_write` 1 is a write. -/
def Access.ofPorts (req_write : BitVec 1) (req_addr : Offset) (req_size : BitVec 2) (req_wdata : Word) : Access :=
  if req_write = 1 then .write req_addr (.ofReqSize req_size) req_wdata else .read req_addr (.ofReqSize req_size)

/-- The access size of `n` bytes (R13). A size that is no power of two up to 4 is none the bus has. -/
def AccessSize.ofBytes (n : Nat) : AccessSize :=
  match n with
  | 1 => .byte
  | 2 => .halfword
  | 4 => .word
  | _ => .reserved

/-- Whether a host address lies in the register window: 4096 bytes at `RC4_BASE` (R36, R51). -/
def inWindow (addr : Nat) : Bool := Config.rc4Base ≤ addr && addr < Config.rc4Base + 4096

/-- The offset the engine decodes: `addr - RC4_BASE`, bits [11:0] of the address (R51). -/
def offsetOf (addr : Nat) : Offset := BitVec.ofNat 12 (addr - Config.rc4Base)

/-- `MemRead(addr, n)` (R13): the access that reaches the engine, none outside its window (log 9). -/
def memRead (addr n : Nat) : Option Access :=
  if inWindow addr then some (.read (offsetOf addr) (.ofBytes n)) else none

/-- `MemWrite(addr, n, v)` (R13): the access that reaches the engine, none outside its window (log 9). -/
def memWrite (addr n : Nat) (v : Word) : Option Access :=
  if inWindow addr then some (.write (offsetOf addr) (.ofBytes n) v) else none

/-- The offset of a readable register in the window (R36). -/
def Register.offset : Register → Offset
  | .STATUS => 0x004
  | .DOUT => 0x008
  | .KEYLEN => 0x00C
  | .INDEX => 0x010
  | .COUNT => 0x014
  | .ID => 0x018
  | .SWIN n => 0x400 + (n.setWidth 12 <<< 2)

/-- The offset of `CMD` (R36). -/
def cmdOffset : Offset := 0x000

/-- The readable register at an aligned offset, none where R53 gives a bus error. -/
def Register.atOffset (off : Offset) : Option Register :=
  if off = 0x004 then some .STATUS
  else if off = 0x008 then some .DOUT
  else if off = 0x00C then some .KEYLEN
  else if off = 0x010 then some .INDEX
  else if off = 0x014 then some .COUNT
  else if off = 0x018 then some .ID
  else if 0x400 ≤ off ∧ off ≤ 0x7FC then some (.SWIN (((off - 0x400) >>> 2).setWidth 8))
  else none

/-- A 4-byte access at an offset that is a multiple of 4 (R52, R58). -/
def wordAligned (off : Offset) (size : AccessSize) : Bool :=
  size = .word && off.extractLsb' 0 2 = 0

/-- The register an accepted read reads; none where the read is refused (R52, R53). -/
def readTarget (off : Offset) (size : AccessSize) : Option Register :=
  if wordAligned off size then Register.atOffset off else none

/-- Whether a write is accepted: only a 4-byte write of `CMD` is (R52, R53). -/
def writeAccepted (off : Offset) (size : AccessSize) : Bool :=
  wordAligned off size && off = cmdOffset

/-- Whether the engine accepts an access (R52). -/
def Access.accepted : Access → Bool
  | .read off size => (readTarget off size).isSome
  | .write off size _ => writeAccepted off size

end Sys2Proof.Machine
end

