-- ==== Sys2Proof/Machine/Ops.lean ====
section
/-! DEFINITION. The operations the commands and the bus share: completing a command, raising an error (60_exceptions.md
R201), refusing an access (R206), the PRGA step (42_prga_xor.md R140), and the two resets (43_control.md R171,
70_reset_and_hazards.md R230). There is no trap entry and no trap return (R209, R210): raising an error is all an error
does. -/

namespace Sys2Proof.Machine

/-- `LASTRES <- OK`: the end of every successful command (R29, R202). -/
def complete (s : State) : State := { s with LASTRES := Result.OK.code }

/-- `raise E` (R201): the code, the flag, and for `INVALID_KEY` the phase; every other piece of state keeps its value. -/
def raiseError (e : CommandError) (s : State) : State :=
  let t := setFlag e { s with LASTRES := e.code }
  match e with
  | .INVALID_KEY => { t with PHASE := .UNKEYED }
  | .NOT_KEYED => t
  | .ILLEGAL_CMD => t

/-- The engine gives a response: exactly one for each access, in order (R56). -/
def respond (r : Response) (s : State) : State := { s with responses := s.responses ++ [r] }

/-- A refused access (R52, R206): `E_BUS <- 1`, read data 0, the error indication, nothing else. -/
def refuseAccess (s : State) : State := respond { rdata := 0, err := true } { s with E_BUS := true }

/-- `if KEYLEN < 256: K[KEYLEN] <- b; KEYLEN <- KEYLEN + 1`, else `b` is discarded (40_key_load.md R101). -/
def appendKey (b : Byte) (s : State) : State :=
  if s.KEYLEN.toNat < 256 then { s with K := s.K.put (s.KEYLEN.setWidth 8) b, KEYLEN := s.KEYLEN + 1 } else s

/-- What a KSA with a non-empty key writes (41_ksa.md R120), but for `LASTRES`. -/
def startStream (s : State) : State :=
  { s with S := keySchedule s.K s.KEYLEN, I := 0, J := 0, PHASE := .READY, DOUT := 0, COUNT := 0 }

/-- `PrgaStep()` (R140): the state with the new `I`, `J` and `S`, and the keystream byte. -/
def prgaStep (s : State) : State × Byte :=
  let I := s.I + 1
  let J := s.J + s.S.entry I
  let S := s.S.swap I J
  let t := S.entry I + S.entry J
  ({ s with I := I, J := J, S := S }, S.entry t)

/-- `k <- PrgaStep(); DOUT <- out(k); COUNT <- COUNT + 1` (R141, R142), where `out` is what the command does with the
keystream byte. -/
def emitByte (out : Byte → Byte) (s : State) : State :=
  let p := prgaStep s
  { p.1 with DOUT := out p.2, COUNT := p.1.COUNT + 1 }

/-- The state the RESET command leaves (R171): the reset state with `K`, and the bus side of the run, as they were. -/
def softReset (s : State) : State :=
  clearFlags
    { s with S := Table.identity, KEYLEN := 0, I := 0, J := 0, PHASE := .UNKEYED, DOUT := 0, COUNT := 0,
             LASTRES := Result.OK.code }

/-- The reset input (R230): the state of R46, `K` a new free draw (R47). It is no access and gives no response (R231). -/
def hardReset (s : State) : State :=
  { State.reset with
    K := Table.freeKey s.draws
    draws := s.draws + 1
    pending := s.pending
    responses := s.responses }

end Sys2Proof.Machine
end

