-- ==== Sys2Proof/Machine/Control.lean ====
section
/-! DEFINITION. NOP, RESET and CLRERR (43_control.md R170 to R172). -/

namespace Sys2Proof.Machine

/-- `NOP` (R170): `LASTRES <- OK`. -/
def execNop (s : State) : Host.Outcome State Fault Refusal := .next (complete s)

/-- `RESET` (R171). -/
def execReset (s : State) : Host.Outcome State Fault Refusal := .next (complete (softReset s))

/-- `CLRERR` (R172): the four sticky flags to 0, `LASTRES <- OK`. -/
def execClrerr (s : State) : Host.Outcome State Fault Refusal := .next (complete (clearFlags s))

end Sys2Proof.Machine
end

