-- ==== Sys2Proof/Machine/KeyLoad.lean ====
section
/-! DEFINITION. CLRKEY and KEYB (40_key_load.md R100, R101). -/

namespace Sys2Proof.Machine

/-- `CLRKEY` (R100): `KEYLEN <- 0`; the entries of `K` stay. -/
def execClrkey (s : State) : Host.Outcome State Fault Refusal := .next (complete { s with KEYLEN := 0 })

/-- `KEYB b` (R101): append `b`, or discard it when the buffer is full; no error either way. -/
def execKeyb (b : Byte) (s : State) : Host.Outcome State Fault Refusal := .next (complete (appendKey b s))

end Sys2Proof.Machine
end

