-- ==== Sys2Proof/Machine/Keystream.lean ====
section
/-! DEFINITION. KS and XOR (42_prga_xor.md R141, R142). -/

namespace Sys2Proof.Machine

/-- `KS` (R141): `NOT_KEYED` before any write, else `DOUT <- k`. -/
def execKs (s : State) : Host.Outcome State Fault Refusal :=
  match s.PHASE with
  | .UNKEYED => .next (raiseError .NOT_KEYED s)
  | .READY => .next (complete (emitByte (fun k => k) s))

/-- `XOR d` (R142): `NOT_KEYED` before any write, else `DOUT <- d ^ k`. -/
def execXor (d : Byte) (s : State) : Host.Outcome State Fault Refusal :=
  match s.PHASE with
  | .UNKEYED => .next (raiseError .NOT_KEYED s)
  | .READY => .next (complete (emitByte (fun k => d ^^^ k) s))

end Sys2Proof.Machine
end

