-- ==== Sys2Proof/Machine/Schedule.lean ====
section
/-! DEFINITION. KSA (41_ksa.md R120). -/

namespace Sys2Proof.Machine

/-- `KSA` (R120): the check comes before any write (R124); then the schedule and a fresh stream. -/
def execKsa (s : State) : Host.Outcome State Fault Refusal :=
  if s.KEYLEN = 0 then .next (raiseError .INVALID_KEY s) else .next (complete (startStream s))

end Sys2Proof.Machine
end

