-- ==== Sys2Proof/Machine/Dispatch.lean ====
section
/-! DEFINITION. The meaning of every command, one arm each (30_encoding.md R84, R85). -/

namespace Sys2Proof.Machine

def exec (i : Instr) (s : State) : Host.Outcome State Fault Refusal :=
  match i with
  | .nop => Sys2Proof.Machine.execNop s
  | .reset => Sys2Proof.Machine.execReset s
  | .clrerr => Sys2Proof.Machine.execClrerr s
  | .clrkey => Sys2Proof.Machine.execClrkey s
  | .keyb b => Sys2Proof.Machine.execKeyb b s
  | .ksa => Sys2Proof.Machine.execKsa s
  | .ks => Sys2Proof.Machine.execKs s
  | .xor d => Sys2Proof.Machine.execXor d s

end Sys2Proof.Machine
end

