-- ==== Sys2Proof/Machine/Serve.lean ====
section
/-! DEFINITION. The engine's answer to one access and to one input (00_scope.md R14; 20_memory.md R52 to R56;
70_reset_and_hazards.md R230, R231). -/

namespace Sys2Proof.Machine

/-- `execute(w)` (30_encoding.md R85): an illegal word raises `ILLEGAL_CMD` and does nothing else (R86). -/
def executeWord (w : Word) (s : State) : Host.Outcome State Fault Refusal :=
  match decode w with
  | .error _ => .next (raiseError .ILLEGAL_CMD s)
  | .ok i => exec i s

/-- The response of an accepted write, given after every state change of its command (R56): a normal response, also where
the command raised an error (R201). -/
def acknowledge (o : Host.Outcome State Fault Refusal) : Host.Outcome State Fault Refusal :=
  match o with
  | .next t => .next (respond { rdata := 0, err := false } t)
  | .fault f => .fault f
  | .refused r => .refused r

/-- The engine's answer to one access (R52 to R55): a read of a listed register gives its value and changes nothing, a
word write of `CMD` executes one command, anything else is refused. -/
def serve (a : Access) (s : State) : Host.Outcome State Fault Refusal :=
  match a with
  | .read off size =>
    match readTarget off size with
    | some r => .next (respond { rdata := r.value s, err := false } s)
    | none => .next (refuseAccess s)
  | .write off size w => if writeAccepted off size then acknowledge (executeWord w s) else .next (refuseAccess s)

/-- The accesses of a list one after the other, each complete before the next (R63). -/
def serveAll (l : List Access) (s : State) : Host.Outcome State Fault Refusal :=
  match l with
  | [] => .next s
  | a :: rest =>
    match serve a s with
    | .next t => serveAll rest t
    | .fault f => .fault f
    | .refused r => .refused r

/-- An access that is in progress when the reset input falls (R231): its command may or may not have taken effect, and it
gets no response (log 5). -/
def abandonAccess (a : Access) (s : State) : State :=
  if Config.inFlightTakesEffect s.draws then
    match serve a s with
    | .next t => { t with responses := s.responses }
    | .fault _ => s
    | .refused _ => s
  else s

/-- What one input does. -/
def serveInput (x : Input) (s : State) : Host.Outcome State Fault Refusal :=
  match x with
  | .access a => serve a s
  | .reset => .next (hardReset s)
  | .resetDuring a => .next (hardReset (abandonAccess a s))

/-- The next step of a run: the next input is taken off the list and answered. With none pending the engine holds its
state unchanged (60_exceptions.md R218; log 6). -/
def serveNext (s : State) : Host.Outcome State Fault Refusal :=
  match s.pending with
  | [] => .next s
  | x :: rest => serveInput x { s with pending := rest }

/-- The access that writes a word to `CMD` (R13, R91). -/
def writeCmd (w : Word) : Access := .write cmdOffset .word w

/-- The 32-bit command word of an instruction numbered as spec/opcode_table.json numbers it (R80). -/
def tableWord (nbits w : Nat) : Word := BitVec.ofNat 32 (w % 2 ^ nbits)

end Sys2Proof.Machine
end

