-- ==== Sys2Proof/Machine/Step.lean ====
section
/-! DEFINITION. One step of the machine: the engine answers the next input (00_scope.md R14). There is no fetch and no
program counter (10_state.md R33): the host delivers each command by a write of `CMD`. -/

namespace Sys2Proof.Machine

/-- One step. -/
def step (s : State) : Host.Outcome State Fault Refusal := serveNext s

/-- `s` with the command word placed where the engine takes its next command: the host's next access is the write of that
word to `CMD` (R14, R55; log 7). -/
def State.withFetchWord (s : State) (nbits w : Nat) : State :=
  { s with pending := .access (writeCmd (tableWord nbits w)) :: s.pending }

end Sys2Proof.Machine
end

