-- ==== Sys2Proof/Machine/Source.lean ====
section
/-! DEFINITION. The operations of the source as the spec quotes them (41_ksa.md R120, 42_prga_xor.md R140, R142 to R145):
`keySchedule`, `generateKeystream`, `transform`, `encrypt`, `decrypt`, on natural numbers with `mod 256` and on keys of any
length. They are no part of the machine: rules R103, R104 and R143 to R146 compare the engine with them. -/

namespace Sys2Proof.Source

/-- The source's one error: "key is empty (zero length)" (R16, R203). -/
inductive InvalidKey where
  | emptyKey
deriving DecidableEq, Repr

/-- "swap `S[i]` and `S[j]`". -/
def swap (S : Nat → Nat) (i j : Nat) : Nat → Nat :=
  fun n => if n = i then S j else if n = j then S i else S n

/-- "`j = (j + S[i] + key[i mod key.length]) mod 256`; swap `S[i]` and `S[j]`" (R120). -/
def ksaRound (key : List Nat) (p : (Nat → Nat) × Nat) (i : Nat) : (Nat → Nat) × Nat :=
  let j := (p.2 + p.1 i + key.getD (i % key.length) 0) % 256
  (swap p.1 i j, j)

/-- The first `n` rounds of the second loop, from `S[i] = i` and `j = 0` (R120). -/
def ksaRounds (key : List Nat) (n : Nat) : (Nat → Nat) × Nat :=
  (List.range n).foldl (ksaRound key) (fun i => i, 0)

/-- `keySchedule(key)` (R120): `InvalidKey` for the empty key, else all 256 rounds. -/
def keySchedule (key : List Nat) : Except InvalidKey (Nat → Nat) :=
  if key = [] then .error .emptyKey else .ok (ksaRounds key 256).1

/-- The next `n` keystream bytes from `S`, `i` and `j` (R140). -/
def keystreamFrom (S : Nat → Nat) (i j : Nat) : Nat → List Nat
  | 0 => []
  | n + 1 =>
    let i' := (i + 1) % 256
    let j' := (j + S i') % 256
    let S' := swap S i' j'
    S' ((S' i' + S' j') % 256) :: keystreamFrom S' i' j' n

/-- `generateKeystream(S, n)`: from "the fixed starting indices `(0,0)`" (R143). -/
def generateKeystream (S : Nat → Nat) (n : Nat) : List Nat := keystreamFrom S 0 0 n

/-- `transform(key, data)`: "Result`[k] = data[k] XOR ks[k]` for each index `k`" (R142, R144). -/
def transform (key data : List Nat) : Except InvalidKey (List Nat) :=
  (keySchedule key).map fun S => List.zipWith (fun d k => d ^^^ k) data (generateKeystream S data.length)

/-- `encrypt(key, plaintext)`: one of the "two thin entry points delegating to one internal routine" (R90). -/
def encrypt (key plaintext : List Nat) : Except InvalidKey (List Nat) := transform key plaintext

/-- `decrypt(key, ciphertext)` (R90). -/
def decrypt (key ciphertext : List Nat) : Except InvalidKey (List Nat) := transform key ciphertext

end Sys2Proof.Source
end

