-- ==== Sys2Proof/Machine/Pseudo.lean ====
section
/-! DEFINITION. The pseudo-instructions (30_encoding.md R90): each a list of the host's accesses, and for TRANSFORM the
host's look at `STATUS` in between. -/

namespace Sys2Proof.Machine

/-- `WR CMD, <command>` (R91). -/
def wr (i : Instr) : Access := writeCmd (encode i)

/-- `RD <reg>` (R91). -/
def rd (r : Register) : Access := .read r.offset .word

/-- `LOADKEY k`: `CLRKEY`; then one `KEYB` for each key byte. -/
def loadKey (k : List Byte) : List Access := wr .clrkey :: k.map fun b => wr (.keyb b)

/-- `SCHEDULE k`: `LOADKEY k`; `KSA`. -/
def schedule (k : List Byte) : List Access := loadKey k ++ [wr .ksa]

/-- `KEYSTREAM n`: `n` times `KS`; `RD DOUT`. -/
def keystream : Nat → List Access
  | 0 => []
  | n + 1 => wr .ks :: rd .DOUT :: keystream n

/-- `XORSTREAM d`: for each data byte `XOR d[k]`; `RD DOUT`. -/
def xorStream : List Byte → List Access
  | [] => []
  | d :: rest => wr (.xor d) :: rd .DOUT :: xorStream rest

/-- The accesses of `TRANSFORM k, d` up to the read of `STATUS`. -/
def transformOpening (k : List Byte) : List Access := schedule k ++ [rd .STATUS]

/-- What the host keeps of the responses to a list of accesses: bits [7:0] of each response to `RD DOUT` (R90). -/
def outputBytes : List Access → List Response → List Byte
  | a :: as, r :: rs => if a = rd .DOUT then r.rdata.setWidth 8 :: outputBytes as rs else outputBytes as rs
  | _, _ => []

/-- The `LASTRES` field of a `STATUS` word (R38). -/
def lastresField (status : Word) : BitVec 4 := status.extractLsb' 4 4

/-- `TRANSFORM k, d` (R90): `SCHEDULE k`; `RD STATUS` and stop with `InvalidKey` if `LASTRES = 1`; `XORSTREAM d`. The
engine's state at the end, and the output bytes (log 13). -/
def transform (k d : List Byte) (s : State) :
    Host.Outcome (State × Except Source.InvalidKey (List Byte)) Fault Refusal :=
  match serveAll (transformOpening k) s with
  | .fault f => .fault f
  | .refused r => .refused r
  | .next t =>
    if (t.responses.getLast?.map fun r => lastresField r.rdata) = some Result.INVALID_KEY.code then
      .next (t, .error .emptyKey)
    else
      match serveAll (xorStream d) t with
      | .fault f => .fault f
      | .refused r => .refused r
      | .next u => .next (u, .ok (outputBytes (xorStream d) (u.responses.drop t.responses.length)))

/-- `ENCRYPT k, p` expands to `TRANSFORM k, p` (R90). -/
def encrypt (k p : List Byte) (s : State) :
    Host.Outcome (State × Except Source.InvalidKey (List Byte)) Fault Refusal := transform k p s

/-- `DECRYPT k, c` expands to `TRANSFORM k, c` (R90). -/
def decrypt (k c : List Byte) (s : State) :
    Host.Outcome (State × Except Source.InvalidKey (List Byte)) Fault Refusal := transform k c s

end Sys2Proof.Machine
end

