-- ==== Sys2Proof/Safety.lean ====
section
/-! DEFINITION. What claims about runs of the engine are stated in: the invariants of its state, the key bytes a run has
loaded, and which states no access can tell apart. -/

namespace Sys2Proof.Machine

/-- `S` is "a permutation of `0..255` (bijective); no value repeats", and every value occurs (10_state.md R22). -/
def Table.IsPermutation (T : Table) : Prop :=
  (∀ a b : Byte, T.entry a = T.entry b → a = b) ∧ ∀ v : Byte, ∃ n : Byte, T.entry n = v

/-- What every reachable state satisfies by the spec's own words. -/
structure State.Sound (s : State) : Prop where
  /-- R22. -/
  permutation : s.S.IsPermutation
  /-- R24: "values 257..511 never occur". -/
  keylen_le : s.KEYLEN ≤ 256
  /-- R29: "Codes 4..15 are never written". -/
  lastres_le : s.LASTRES ≤ 3
  /-- R207: `LASTRES = 1` or `LASTRES = 2` implies `STATUS.KEYED = 0`. -/
  failed_unkeyed : s.LASTRES = 1 ∨ s.LASTRES = 2 → s.PHASE = .UNKEYED

/-- The command an input executes, if it is an accepted write of a legal word to `CMD`. -/
def Input.command? : Input → Option Instr
  | .access (.write off size w) => if writeAccepted off size then (decode w).toOption else none
  | .access (.read _ _) => none
  | .reset => none
  | .resetDuring _ => none

/-- Whether an input is the reset input. -/
def Input.isReset : Input → Bool
  | .access _ => false
  | .reset => true
  | .resetDuring _ => true

/-- The loaded key bytes after one command, from those before it: KEYB adds its byte, CLRKEY and RESET start again. -/
def keyAfterCommand (h : List Byte) : Instr → List Byte
  | .nop => h
  | .reset => []
  | .clrerr => h
  | .clrkey => []
  | .keyb b => h ++ [b]
  | .ksa => h
  | .ks => h
  | .xor _ => h

/-- The bytes of the KEYB commands executed since the last CLRKEY or reset, oldest first (R102), after one more input. -/
def keyHistory (h : List Byte) (x : Input) : List Byte :=
  if x.isReset then []
  else
    match x.command? with
    | some i => keyAfterCommand h i
    | none => h

/-- The key buffer holds the loaded key: `KEYLEN` counts the bytes of `h`, saturating at 256 (R24), and each entry below
`KEYLEN` is the byte of its KEYB (R102). -/
def State.HoldsKey (s : State) (h : List Byte) : Prop :=
  s.KEYLEN.toNat = min h.length 256 ∧ ∀ n : Byte, n.toNat < s.KEYLEN.toNat → h[n.toNat]? = some (s.K.entry n)

/-- Two states that differ at most in entries of `K` no access can observe: those at `KEYLEN` and above (R47). -/
def State.SameButUnreadKey (s t : State) : Prop :=
  t = { s with K := t.K } ∧ ∀ n : Byte, n.toNat < s.KEYLEN.toNat → s.K.entry n = t.K.entry n

/-- A sticky flag is set (R30). -/
def State.anyFlag (s : State) : Bool := s.E_INVKEY || s.E_NOTKEYED || s.E_ILLCMD || s.E_BUS

/-- An input that clears the sticky flags: CLRERR, RESET or the reset input (R30). -/
def Input.clearsFlags (x : Input) : Bool :=
  x.isReset || x.command? = some .clrerr || x.command? = some .reset

/-- An illegal word: it raises `ILLEGAL_CMD` in every state, and does nothing else (R86, R201, R205). -/
def RaisesIllegal (w : Word) : Prop :=
  ∀ s : State, executeWord w s = .next { s with LASTRES := 3, E_ILLCMD := true }

/-- What one PRGA step does (42_prga_xor.md R140): from `s` to the indices and permutation of `t`, giving the keystream
byte `k`. `S[I]` and `S[J]` of the last two lines are read after the swap. -/
structure PrgaResult (s t : State) (k : Byte) : Prop where
  index_i : t.I = s.I + 1
  index_j : t.J = s.J + s.S.entry t.I
  at_i : t.S.entry t.I = s.S.entry t.J
  at_j : t.S.entry t.J = s.S.entry t.I
  elsewhere : ∀ n, n ≠ t.I → n ≠ t.J → t.S.entry n = s.S.entry n
  byte : k = t.S.entry (t.S.entry t.I + t.S.entry t.J)

/-- The keystream byte a command used, from the `DOUT` it left: KS gives it, XOR `d` gives `d ^ k`. -/
def usedByte (i : Instr) (dout : Byte) : Option Byte :=
  match i with
  | .nop => none
  | .reset => none
  | .clrerr => none
  | .clrkey => none
  | .keyb _ => none
  | .ksa => none
  | .ks => some dout
  | .xor d => some (d ^^^ dout)

/-- The keystream bytes the KS and XOR commands among a list of accesses use, in order (R143). -/
def usedBytes (l : List Access) (s : State) : List Byte :=
  match l with
  | [] => []
  | a :: rest =>
    match serve a s with
    | .next t => (((Input.access a).command?.bind fun i => usedByte i t.DOUT).toList) ++ usedBytes rest t
    | .fault _ => []
    | .refused _ => []

/-- Whether a command is KS or XOR, which use a keystream byte. -/
def usesByte : Instr → Bool
  | .nop => false
  | .reset => false
  | .clrerr => false
  | .clrkey => false
  | .keyb _ => false
  | .ksa => false
  | .ks => true
  | .xor _ => true

/-- Whether an access executes KS or XOR. -/
def Access.takesByte (a : Access) : Bool := (Input.access a).command?.any usesByte

end Sys2Proof.Machine
end

