-- ==== Sys2Proof/Certificates/Slice0/Obligations.lean ====
section
/-! DEFINITION. The statements about the model, for the provers. Each docstring names the rule of spec/ it formalises. -/

open Sys2Proof Sys2Proof.Machine

/-! ### Encoding -/

/-- R84's words, for a few of them written out: each is read as its command. -/
def Obligations.TableWordsDecode : Prop :=
  decode 0x00000000 = .ok .nop ∧ decode 0x00000001 = .ok .reset ∧ decode 0x00000002 = .ok .clrerr ∧
  decode 0x00000003 = .ok .clrkey ∧ decode 0x00004B04 = .ok (.keyb 0x4B) ∧ decode 0x00000010 = .ok .ksa ∧
  decode 0x00000020 = .ok .ks ∧ decode 0x00005021 = .ok (.xor 0x50) ∧ decode 0x00000100 = .error .operandNotZero ∧
  decode 0x00010004 = .error .reservedBits ∧ decode 0x00000005 = .error .reservedOpcode

/-- The decoder (R85) and the encoder (R84, R89) agree on all 2^32 words and all commands with every operand byte: a word
is read as a command exactly when it is that command's word. -/
def Obligations.DecodeAgreesWithEncode : Prop :=
  ∀ (w : Word) (i : Instr), decode w = .ok i ↔ w = encode i

/-- R86: which words are illegal, said on the bits of the word, and what an illegal word does. -/
def Obligations.IllegalWordsExactly : Prop :=
  ∀ w : Word,
    ((∃ e, decode w = .error e) ↔
      w.extractLsb' 16 16 ≠ 0 ∨
      w.extractLsb' 0 8 ∉ ([0x00, 0x01, 0x02, 0x03, 0x04, 0x10, 0x20, 0x21] : List Byte) ∨
      (w.extractLsb' 0 8 ∈ ([0x00, 0x01, 0x02, 0x03, 0x10, 0x20] : List Byte) ∧ w.extractLsb' 8 8 ≠ 0)) ∧
    ((∃ e, decode w = .error e) → RaisesIllegal w)

/-- R57: the byte lanes of a word, lane `k` carrying bits [8k+7:8k], give the decoder that word, and the lanes after it
are left. -/
def Obligations.ByteLanesLittleEndian : Prop :=
  (∀ (w : Word) (k : Fin 4), (lanesOf w)[k.val]? = some (w.extractLsb' (8 * k.val) 8)) ∧
  ∀ (w : Word) (rest : List Byte), decodeBytes (lanesOf w ++ rest) = (decode w).map fun i => (i, rest)

/-- R89: the lines that are commands are the well formed ones, and the word of each is `zext_32({d[7:0], op[7:0]})`: KEYB
and XOR with their operand, the other six mnemonics with data 0 and the opcode of R84. That a quoted character must have a
code below 128 to be well formed is the model's choice (log 12), not R89's. -/
def Obligations.AssemblerEncodesLines : Prop :=
  (∀ l : AsmLine, (assemble l).isSome = l.wellFormed) ∧
  (∀ o : AsmOperand, o.wellFormed = true →
    (assemble ⟨.KEYB, some o⟩).map (fun i => (encode i).toNat) = some (o.value * 256 + 0x04) ∧
    (assemble ⟨.XOR, some o⟩).map (fun i => (encode i).toNat) = some (o.value * 256 + 0x21)) ∧
  (assemble ⟨.NOP, none⟩).map encode = some 0x00000000 ∧ (assemble ⟨.RESET, none⟩).map encode = some 0x00000001 ∧
  (assemble ⟨.CLRERR, none⟩).map encode = some 0x00000002 ∧ (assemble ⟨.CLRKEY, none⟩).map encode = some 0x00000003 ∧
  (assemble ⟨.KSA, none⟩).map encode = some 0x00000010 ∧ (assemble ⟨.KS, none⟩).map encode = some 0x00000020 ∧
  (assemble ⟨.KEYB, some (.quoted 'K')⟩).map encode = some 0x00004B04 ∧
  (assemble ⟨.XOR, some (.hex 0x50)⟩).map encode = some 0x00005021

/-! ### The commands: what each does, and where it completes -/

/-- R170. -/
def Obligations.NopWritesOnlyLastres : Prop :=
  (∀ s : State, exec .nop s = .next { s with LASTRES := 0 }) ∧
  decode 0x00000000 = .ok .nop ∧
  ∀ w : Word, w.extractLsb' 0 8 = 0x00 → w ≠ 0x00000000 → RaisesIllegal w

/-- R171: the reset state, with `K` and the bus side as they were; `STATUS` reads 0. -/
def Obligations.ResetCommandResult : Prop :=
  (∀ s : State, ∃ t : State, exec .reset s = .next t ∧ (∀ n : Byte, t.S.entry n = n) ∧ statusWord t = 0x00000000 ∧
    t = { s with S := t.S, KEYLEN := 0, I := 0, J := 0, PHASE := .UNKEYED, DOUT := 0, COUNT := 0, LASTRES := 0,
                 E_INVKEY := false, E_NOTKEYED := false, E_ILLCMD := false, E_BUS := false }) ∧
  decode 0x00000001 = .ok .reset ∧
  ∀ w : Word, w.extractLsb' 0 8 = 0x01 → w ≠ 0x00000001 → RaisesIllegal w

/-- R172: the four flags to 0; `KEYED` and everything else unchanged. -/
def Obligations.ClrerrClearsFlagsOnly : Prop :=
  (∀ s : State, exec .clrerr s =
    .next { s with E_INVKEY := false, E_NOTKEYED := false, E_ILLCMD := false, E_BUS := false, LASTRES := 0 }) ∧
  decode 0x00000002 = .ok .clrerr ∧
  ∀ w : Word, w.extractLsb' 0 8 = 0x02 → w ≠ 0x00000002 → RaisesIllegal w

/-- R100: `KEYLEN <- 0` and nothing else but `LASTRES`; the entries of `K` stay, and a KSA right after raises
`INVALID_KEY`. -/
def Obligations.ClrkeyEmptiesKey : Prop :=
  (∀ s : State, exec .clrkey s = .next { s with KEYLEN := 0, LASTRES := 0 }) ∧
  (∀ s t : State, exec .clrkey s = .next t →
    exec .ksa t = .next { t with LASTRES := 1, E_INVKEY := true, PHASE := .UNKEYED }) ∧
  decode 0x00000003 = .ok .clrkey ∧
  ∀ w : Word, w.extractLsb' 0 8 = 0x03 → w ≠ 0x00000003 → RaisesIllegal w

/-- R101: the byte goes to `K[KEYLEN]` and is counted; a full buffer discards it, without error. -/
def Obligations.KeybAppendsByte : Prop :=
  (∀ (b : Byte) (s : State), s.KEYLEN.toNat < 256 → ∃ t : State, exec (.keyb b) s = .next t ∧
    t.KEYLEN.toNat = s.KEYLEN.toNat + 1 ∧
    (∀ n : Byte, t.K.entry n = if n.toNat = s.KEYLEN.toNat then b else s.K.entry n) ∧
    t = { s with K := t.K, KEYLEN := t.KEYLEN, LASTRES := 0 }) ∧
  (∀ (b : Byte) (s : State), 256 ≤ s.KEYLEN.toNat → exec (.keyb b) s = .next { s with LASTRES := 0 }) ∧
  (∀ b : Byte, decode (0x0000#16 ++ b ++ 0x04#8) = .ok (.keyb b)) ∧
  ∀ w : Word, w.extractLsb' 0 8 = 0x04 → w.extractLsb' 16 16 ≠ 0 → RaisesIllegal w

/-- R120: with a key loaded, the permutation is the one the source's `keySchedule` gives for the key `K[0..KEYLEN-1]`
(R103), a fresh stream starts, and `K`, `KEYLEN`, the sticky flags and the bus side keep their values; with the empty key,
`INVALID_KEY` and nothing else. -/
def Obligations.KsaSchedulesLoadedKey : Prop :=
  (∀ s : State, s.KEYLEN ≠ 0 → ∃ (t : State) (P : Nat → Nat), exec .ksa s = .next t ∧
    Source.keySchedule ((List.range s.KEYLEN.toNat).map fun n => (s.K.entry (BitVec.ofNat 8 n)).toNat) = .ok P ∧
    (∀ n : Byte, (t.S.entry n).toNat = P n.toNat) ∧
    t = { s with S := t.S, I := 0, J := 0, PHASE := .READY, DOUT := 0, COUNT := 0, LASTRES := 0 }) ∧
  (∀ s : State, s.KEYLEN = 0 →
    exec .ksa s = .next { s with LASTRES := 1, E_INVKEY := true, PHASE := .UNKEYED }) ∧
  decode 0x00000010 = .ok .ksa ∧
  ∀ w : Word, w.extractLsb' 0 8 = 0x10 → w ≠ 0x00000010 → RaisesIllegal w

/-- R203: a KSA with the empty key raises `INVALID_KEY` before any other write, and only KSA raises it. -/
def Obligations.KsaEmptyKeyRaisesInvalidKey : Prop :=
  (∀ s : State, s.KEYLEN = 0 →
    exec .ksa s = .next { s with LASTRES := 1, E_INVKEY := true, PHASE := .UNKEYED }) ∧
  ∀ (i : Instr) (s t : State), exec i s = .next t → t.LASTRES = 1 → i = .ksa ∧ s.KEYLEN = 0

/-- R204: KS and XOR in `UNKEYED` raise `NOT_KEYED` with no other effect, and nothing else raises it. -/
def Obligations.UnkeyedStreamRaisesNotKeyed : Prop :=
  (∀ s : State, s.PHASE = .UNKEYED → exec .ks s = .next { s with LASTRES := 2, E_NOTKEYED := true }) ∧
  (∀ (d : Byte) (s : State), s.PHASE = .UNKEYED →
    exec (.xor d) s = .next { s with LASTRES := 2, E_NOTKEYED := true }) ∧
  ∀ (i : Instr) (s t : State), exec i s = .next t → t.LASTRES = 2 →
    (i = .ks ∨ ∃ d, i = .xor d) ∧ s.PHASE = .UNKEYED

/-- R141 with R140, in `READY`: one PRGA step, the keystream byte in `DOUT`, the count, and nothing else. -/
def Obligations.KsGivesKeystreamByte : Prop :=
  (∀ s : State, s.PHASE = .READY → ∃ t : State, exec .ks s = .next t ∧ PrgaResult s t t.DOUT ∧
    t.COUNT.toNat = (s.COUNT.toNat + 1) % 2 ^ 32 ∧
    t = { s with S := t.S, I := t.I, J := t.J, DOUT := t.DOUT, COUNT := t.COUNT, LASTRES := 0 }) ∧
  (∀ s : State, s.PHASE = .UNKEYED → exec .ks s = .next { s with LASTRES := 2, E_NOTKEYED := true }) ∧
  decode 0x00000020 = .ok .ks ∧
  ∀ w : Word, w.extractLsb' 0 8 = 0x20 → w ≠ 0x00000020 → RaisesIllegal w

/-- R142 with R140, in `READY`: one PRGA step, the data byte XOR the keystream byte in `DOUT`, the count, nothing else. -/
def Obligations.XorGivesCombinedByte : Prop :=
  (∀ (d : Byte) (s : State), s.PHASE = .READY → ∃ (t : State) (k : Byte), exec (.xor d) s = .next t ∧
    PrgaResult s t k ∧ t.DOUT = d ^^^ k ∧ t.COUNT.toNat = (s.COUNT.toNat + 1) % 2 ^ 32 ∧
    t = { s with S := t.S, I := t.I, J := t.J, DOUT := t.DOUT, COUNT := t.COUNT, LASTRES := 0 }) ∧
  (∀ (d : Byte) (s : State), s.PHASE = .UNKEYED →
    exec (.xor d) s = .next { s with LASTRES := 2, E_NOTKEYED := true }) ∧
  (∀ d : Byte, decode (0x0000#16 ++ d ++ 0x21#8) = .ok (.xor d)) ∧
  ∀ w : Word, w.extractLsb' 0 8 = 0x21 → w.extractLsb' 16 16 ≠ 0 → RaisesIllegal w

/-- R149 (marked derived in the spec): KS and XOR 0x00 have the same effect on every piece of state, and other words. -/
def Obligations.KsActsAsXorZero : Prop :=
  (∀ s : State, exec .ks s = exec (.xor 0x00) s) ∧ encode .ks ≠ encode (.xor 0x00)

/-- "XOR is self-inverse" (R142): from the same stream position, XOR of the output byte gives the data byte back. -/
def Obligations.XorIsSelfInverse : Prop :=
  ∀ (d : Byte) (s t : State), s.PHASE = .READY → exec (.xor d) s = .next t →
    ∃ u : State, exec (.xor t.DOUT) s = .next u ∧ u.DOUT = d ∧ u = { t with DOUT := d }

/-- R201: what raising an error does, for each of the three; the response of the raising write is a normal one. -/
def Obligations.RaisingErrorsExactly : Prop :=
  (∀ s : State, raiseError .INVALID_KEY s = { s with LASTRES := 1, E_INVKEY := true, PHASE := .UNKEYED }) ∧
  (∀ s : State, raiseError .NOT_KEYED s = { s with LASTRES := 2, E_NOTKEYED := true }) ∧
  (∀ s : State, raiseError .ILLEGAL_CMD s = { s with LASTRES := 3, E_ILLCMD := true }) ∧
  ∀ (w : Word) (s : State), ∃ t, serve (.write 0x000 .word w) s = .next t ∧
    t.responses = s.responses ++ [{ rdata := 0, err := false }]

/-! ### The bus -/

/-- R52 with R206: exactly which accesses are accepted, and all a refused one does. -/
def Obligations.AccessesAcceptedExactly : Prop :=
  (∀ (off : Offset) (size : AccessSize), (Access.read off size).accepted = true ↔
    size = .word ∧ off.toNat % 4 = 0 ∧
      (off.toNat ∈ [0x004, 0x008, 0x00C, 0x010, 0x014, 0x018] ∨ 0x400 ≤ off.toNat ∧ off.toNat ≤ 0x7FC)) ∧
  (∀ (off : Offset) (size : AccessSize) (v : Word), (Access.write off size v).accepted = true ↔
    size = .word ∧ off.toNat = 0x000) ∧
  ∀ (a : Access) (s : State), a.accepted = false →
    serve a s = .next { s with E_BUS := true, responses := s.responses ++ [{ rdata := 0x00000000, err := true }] }

/-- R38, field by field, with the reserved bits (R45): what a word read of `STATUS` gives; it is 0 after reset, and the
register is read only. -/
def Obligations.StatusWordFields : Prop :=
  (∀ s : State,
    (statusWord s).getLsbD 0 = (s.PHASE = .READY : Bool) ∧ (statusWord s).extractLsb' 1 3 = 0 ∧
    (statusWord s).extractLsb' 4 4 = s.LASTRES ∧ (statusWord s).getLsbD 8 = s.E_INVKEY ∧
    (statusWord s).getLsbD 9 = s.E_NOTKEYED ∧ (statusWord s).getLsbD 10 = s.E_ILLCMD ∧
    (statusWord s).getLsbD 11 = s.E_BUS ∧ (statusWord s).extractLsb' 12 20 = 0 ∧
    serve (.read 0x004 .word) s =
      .next { s with responses := s.responses ++ [{ rdata := statusWord s, err := false }] }) ∧
  statusWord State.reset = 0x00000000 ∧
  ∀ (s : State) (size : AccessSize) (v : Word), serve (.write 0x004 size v) s =
    .next { s with E_BUS := true, responses := s.responses ++ [{ rdata := 0x00000000, err := true }] }

/-- R39, R40, R41, R42, R44 and R43's constant: what a word read of each register gives; and all of them are read only. -/
def Obligations.RegisterReadsGiveValues : Prop :=
  (∀ s : State, ∃ dout keylen index : Word,
    serve (.read 0x008 .word) s = .next { s with responses := s.responses ++ [⟨dout, false⟩] } ∧
    dout.toNat = s.DOUT.toNat ∧
    serve (.read 0x00C .word) s = .next { s with responses := s.responses ++ [⟨keylen, false⟩] } ∧
    keylen.toNat = s.KEYLEN.toNat ∧
    serve (.read 0x010 .word) s = .next { s with responses := s.responses ++ [⟨index, false⟩] } ∧
    index.toNat = s.J.toNat * 256 + s.I.toNat) ∧
  (∀ s : State,
    serve (.read 0x014 .word) s = .next { s with responses := s.responses ++ [⟨s.COUNT, false⟩] } ∧
    serve (.read 0x018 .word) s = .next { s with responses := s.responses ++ [⟨0x52433401, false⟩] }) ∧
  (∀ (s : State) (n : Byte), ∃ v : Word, v.toNat = (s.S.entry n).toNat ∧
    serve (.read (BitVec.ofNat 12 (0x400 + 4 * n.toNat)) .word) s =
      .next { s with responses := s.responses ++ [⟨v, false⟩] }) ∧
  ∀ (s : State) (off : Offset) (size : AccessSize) (v : Word), off ≠ 0x000 →
    serve (.write off size v) s = .next { s with E_BUS := true, responses := s.responses ++ [⟨0, true⟩] }

/-- R54: an accepted read gives the value of the register at its offset and changes no state, and read again, with no
access or with any accepted reads in between, the same response comes; a refused read sets `E_BUS` alone and gives data 0
with the error indication. -/
def Obligations.ReadsHaveNoSideEffects : Prop :=
  ∀ (off : Offset) (size : AccessSize),
    ((Access.read off size).accepted = true ↔ ∃ reg, readTarget off size = some reg) ∧
    (∀ (reg : Register) (s : State), readTarget off size = some reg →
      serve (.read off size) s = .next { s with responses := s.responses ++ [{ rdata := reg.value s, err := false }] } ∧
      ∀ l : List Access, (∀ a ∈ l, ∃ off' size', a = .read off' size' ∧ a.accepted = true) → ∃ m : List Response,
        serveAll (.read off size :: (l ++ [.read off size])) s =
          .next { s with responses := s.responses ++ { rdata := reg.value s, err := false } ::
            (m ++ [{ rdata := reg.value s, err := false }]) }) ∧
    ∀ s : State, readTarget off size = none → serve (.read off size) s =
      .next { s with E_BUS := true, responses := s.responses ++ [{ rdata := 0x00000000, err := true }] }

/-- R37 and R55: a word write of `CMD` executes exactly the command of the word; a read of it is a bus error. -/
def Obligations.CmdIsWriteOnly : Prop :=
  (∀ (w : Word) (i : Instr) (s t : State), decode w = .ok i → exec i s = .next t →
    serve (.write 0x000 .word w) s = .next { t with responses := t.responses ++ [{ rdata := 0, err := false }] }) ∧
  ∀ (size : AccessSize) (s : State), serve (.read 0x000 size) s =
    .next { s with E_BUS := true, responses := s.responses ++ [{ rdata := 0, err := true }] }

/-- R51: the engine decodes bits [11:0] of the address, wherever the platform has placed the window; `req_size` 0, 1 and 3
are refused (R56). -/
def Obligations.WindowDecodesLowAddressBits : Prop :=
  (∀ addr : Nat, inWindow addr = true →
    memRead addr 4 = some (.read (BitVec.ofNat 12 addr) .word) ∧
    ∀ v : Word, memWrite addr 4 v = some (.write (BitVec.ofNat 12 addr) .word v)) ∧
  (∀ off : Nat, off < 4096 → inWindow (Config.rc4Base + off) = true ∧ offsetOf (Config.rc4Base + off) = BitVec.ofNat 12 off) ∧
  ∀ (wr : BitVec 1) (off : Offset) (size : BitVec 2) (v : Word), size ≠ 2 → (Access.ofPorts wr off size v).accepted = false

/-! ### A step, and whole-machine rules -/

/-- A step runs the decoded command (R14, R55, R85): the next input is taken off the list, the command of its word is
executed, and a normal response is given. -/
def Obligations.StepExecutesWrittenCommand : Prop :=
  ∀ (s : State) (rest : List Input) (w : Word) (i : Instr),
    s.pending = .access (.write 0x000 .word w) :: rest → decode w = .ok i →
    step s =
      match exec i { s with pending := rest } with
      | .next t => .next { t with responses := t.responses ++ [{ rdata := 0, err := false }] }
      | .fault f => .fault f
      | .refused r => .refused r

/-- R218, its second sentence: with no access pending the engine holds its state unchanged, however many steps go by. -/
def Obligations.IdleEngineHoldsState : Prop :=
  ∀ (n : Nat) (s : State), s.pending = [] → Host.Core.run Sys2Proof.core n s = .next s

/-- R200: no command, no access and no input stops the engine. -/
def Obligations.NothingStopsTheEngine : Prop :=
  (∀ (i : Instr) (s : State), ∃ t, exec i s = .next t) ∧ ∀ (n : Nat) (s : State), ∃ t, Host.Core.run Sys2Proof.core n s = .next t

/-- R63: a run serves the pending accesses one at a time, in their order, each on the state the one before it left. -/
def Obligations.RunServesAccessesInOrder : Prop :=
  ∀ (l : List Access) (s : State) (rest : List Input), s.pending = l.map .access ++ rest →
    Host.Core.run Sys2Proof.core l.length s = serveAll l { s with pending := rest }

/-- R56 and R231: each access gets exactly one response, at the end of the responses before it; the reset input none. -/
def Obligations.OneResponsePerAccess : Prop :=
  ∀ (s t : State) (x : Input) (rest : List Input), s.pending = x :: rest → step s = .next t →
    t.pending = rest ∧
    ((∃ a, x = .access a) → ∃ r, t.responses = s.responses ++ [r]) ∧
    (x.isReset = true → t.responses = s.responses)

/-- R46: the state the reset input leaves from any state, and the state after reset; `K` is whatever it is (log 3). -/
def Obligations.ResetStateValues : Prop :=
  (∀ (s : State) (rest : List Input), s.pending = .reset :: rest → ∃ t : State, step s = .next t ∧
    (∀ n : Byte, t.S.entry n = n) ∧ t.KEYLEN = 0 ∧ t.I = 0 ∧ t.J = 0 ∧ t.PHASE = .UNKEYED ∧ t.DOUT = 0 ∧ t.COUNT = 0 ∧
    t.LASTRES = 0 ∧ t.E_INVKEY = false ∧ t.E_NOTKEYED = false ∧ t.E_ILLCMD = false ∧ t.E_BUS = false) ∧
  (∀ n : Byte, State.reset.S.entry n = n) ∧ State.reset.KEYLEN = 0 ∧ State.reset.I = 0 ∧ State.reset.J = 0 ∧
  State.reset.PHASE = .UNKEYED ∧ State.reset.DOUT = 0 ∧ State.reset.COUNT = 0 ∧ State.reset.LASTRES = 0 ∧
  State.reset.E_INVKEY = false ∧ State.reset.E_NOTKEYED = false ∧ State.reset.E_ILLCMD = false ∧
  State.reset.E_BUS = false

/-- R231: an access in flight when the reset input falls gets no response, and what the reset leaves does not depend on it.
R231 says so of every effect "except on `K`". That `K` comes out the same with the access and without it is the model's
choice: the reset draws `K` afresh, by the counter of draws (log 3), whether or not the access took effect (log 5). -/
def Obligations.ResetAbandonsAccessInFlight : Prop :=
  ∀ (a : Access) (s : State) (rest : List Input), s.pending = .resetDuring a :: rest →
    step s = step { s with pending := .reset :: rest } ∧ ∀ t, step s = .next t → t.responses = s.responses

/-- R232 (marked derived in the spec): the RESET command leaves what the reset input leaves, but for `K` (and the model's draw counter, log 4). -/
def Obligations.ResetCommandMatchesResetInput : Prop :=
  ∀ s : State, ∃ t u : State, exec .reset s = .next t ∧ serveInput .reset s = .next u ∧
    t.K = s.K ∧ { t with K := u.K, draws := u.draws } = u

/-- R22, R24, R29 and R207: every step keeps the invariants of the engine's state. -/
def Obligations.StepKeepsSound : Prop :=
  ∀ s t : State, s.Sound → step s = .next t → t.Sound

/-- The state after reset meets the invariants: R22, R24, R29, R207, R102 with no byte loaded, and `I` as the low byte of
`COUNT`. -/
def Obligations.ResetMeetsInvariants : Prop :=
  State.reset.Sound ∧ State.reset.HoldsKey [] ∧ State.reset.I = State.reset.COUNT.setWidth 8

/-- R102 (marked derived in the spec): after reset, and after every step, each entry of `K` below `KEYLEN` holds the byte of its KEYB since the last
CLRKEY or reset. -/
def Obligations.StepKeepsLoadedKey : Prop :=
  State.reset.HoldsKey [] ∧
  ∀ (s t : State) (h : List Byte) (x : Input) (rest : List Input), s.pending = x :: rest → s.HoldsKey h →
    step s = .next t → t.HoldsKey (keyHistory h x)

/-- R143's `I = n mod 256` and `COUNT = n mod 2^32`, as an invariant of every step: `I` is the low byte of `COUNT`. -/
def Obligations.StepKeepsIndexWithCount : Prop :=
  ∀ s t : State, s.I = s.COUNT.setWidth 8 → step s = .next t → t.I = t.COUNT.setWidth 8

/-- R47 (marked derived in the spec): entries of `K` at `KEYLEN` and above are never observed. Two states that differ in them alone give the same
responses and stay so, at every step. -/
def Obligations.UnreadKeyIsNeverObserved : Prop :=
  ∀ s s' t : State, s.SameButUnreadKey s' → step s = .next t → ∃ t', step s' = .next t' ∧ t.SameButUnreadKey t'

/-- R30 and R210: the sticky flags accumulate. Only CLRERR, RESET and the reset input clear one, and they clear all four;
`E_BUS` is set by a refused access alone. -/
def Obligations.StickyFlagsAccumulate : Prop :=
  ∀ (s t : State) (x : Input) (rest : List Input), s.pending = x :: rest → step s = .next t →
    (x.clearsFlags = false →
      (s.E_INVKEY = true → t.E_INVKEY = true) ∧ (s.E_NOTKEYED = true → t.E_NOTKEYED = true) ∧
      (s.E_ILLCMD = true → t.E_ILLCMD = true) ∧ (s.E_BUS = true → t.E_BUS = true)) ∧
    (x.clearsFlags = true → t.anyFlag = false) ∧
    (s.E_BUS = false → t.E_BUS = true → ∃ a, x = .access a ∧ a.accepted = false)

/-- R240 (marked derived in the spec): a batch without clearing that ends with all four flags 0 had no refused access and no illegal word, and its last
command, if any, ended with code `OK`. -/
def Obligations.CleanFlagsMeanCleanBatch : Prop :=
  ∀ (l : List Access) (s u : State), (∀ a ∈ l, (Input.access a).clearsFlags = false) →
    serveAll l s = .next u → u.anyFlag = false →
    s.anyFlag = false ∧
    (∀ a ∈ l, a.accepted = true ∧ ∀ off size w, a = .write off size w → ∃ i, decode w = .ok i) ∧
    (∀ r ∈ u.responses.drop s.responses.length, r.err = false) ∧
    ((∃ off size w, Access.write off size w ∈ l) → u.LASTRES = 0)

/-- R208 (marked derived in the spec): one access raises at most one error: at most one of the four flags goes from 0 to 1. -/
def Obligations.OneErrorAtMost : Prop :=
  ∀ (a : Access) (s t : State), serve a s = .next t →
    (!s.E_INVKEY && t.E_INVKEY).toNat + (!s.E_NOTKEYED && t.E_NOTKEYED).toNat +
      (!s.E_ILLCMD && t.E_ILLCMD).toNat + (!s.E_BUS && t.E_BUS).toNat ≤ 1

/-- R29 with R46: every accepted write of `CMD` writes `LASTRES`, with 0, 1, 2 or 3; an access that is no command leaves it,
and so does a step with nothing pending (log 6); the reset input writes it, with 0. -/
def Obligations.LastresWrittenByCommandsAndReset : Prop :=
  (∀ (w : Word) (s t : State), serve (.write 0x000 .word w) s = .next t →
    t.LASTRES ≤ 3 ∧ ∀ v : BitVec 4, serve (.write 0x000 .word w) { s with LASTRES := v } = .next t) ∧
  (∀ (a : Access) (s t : State), serve a s = .next t → (∀ w, a ≠ .write 0x000 .word w) → t.LASTRES = s.LASTRES) ∧
  (∀ s t : State, s.pending = [] → step s = .next t → t.LASTRES = s.LASTRES) ∧
  ∀ (s t : State) (x : Input) (rest : List Input), s.pending = x :: rest → x.isReset = true → step s = .next t →
    t.LASTRES = 0

/-- R26: `READY` is entered by a successful KSA alone, and left by a failing KSA, RESET or the reset input alone. -/
def Obligations.PhaseChangesExactly : Prop :=
  ∀ (s t : State) (x : Input) (rest : List Input), s.pending = x :: rest → step s = .next t →
    (s.PHASE = .UNKEYED → (t.PHASE = .READY ↔ x.command? = some .ksa ∧ s.KEYLEN ≠ 0)) ∧
    (s.PHASE = .READY → (t.PHASE = .UNKEYED ↔
      x.isReset = true ∨ x.command? = some .reset ∨ (x.command? = some .ksa ∧ s.KEYLEN = 0)))

/-- R48: the blank cells of the table of what each command writes, with R21 and R23; no command touches the bus side. -/
def Obligations.CommandsWriteOnlyTheirState : Prop :=
  ∀ (i : Instr) (s t : State), exec i s = .next t →
    (i ∉ [Instr.reset, .ksa, .ks] → (∀ d, i ≠ .xor d) →
      t.S = s.S ∧ t.I = s.I ∧ t.J = s.J ∧ t.DOUT = s.DOUT ∧ t.COUNT = s.COUNT) ∧
    ((∀ b, i ≠ .keyb b) → t.K = s.K) ∧
    (i ∉ [Instr.reset, .clrkey] → (∀ b, i ≠ .keyb b) → t.KEYLEN = s.KEYLEN) ∧
    (i ∉ [Instr.reset, .ksa] → t.PHASE = s.PHASE) ∧
    (i ∉ [Instr.reset, .clrerr] →
      t.E_ILLCMD = s.E_ILLCMD ∧ t.E_BUS = s.E_BUS ∧ (i ≠ .ksa → t.E_INVKEY = s.E_INVKEY) ∧
      (i ≠ .ks → (∀ d, i ≠ .xor d) → t.E_NOTKEYED = s.E_NOTKEYED)) ∧
    t.pending = s.pending ∧ t.responses = s.responses ∧ t.draws = s.draws

/-! ### The key schedule and the stream -/

/-- R123 (marked derived in the spec): whatever `S` was, a successful KSA leaves a permutation of 0..255. -/
def Obligations.KsaLeavesPermutation : Prop :=
  ∀ s : State, s.KEYLEN ≠ 0 → ∃ t : State, exec .ksa s = .next t ∧ t.S.IsPermutation

/-- R148 (marked derived in the spec): KS and XOR keep a permutation a permutation. -/
def Obligations.PrgaKeepsPermutation : Prop :=
  ∀ (s t : State) (i : Instr), (i = .ks ∨ ∃ d, i = .xor d) → exec i s = .next t → s.S.IsPermutation → t.S.IsPermutation

/-- R121 (marked derived in the spec): what a successful KSA leaves is a function of `KEYLEN` and `K[0..KEYLEN-1]` alone. -/
def Obligations.KsaDependsOnKeyAlone : Prop :=
  ∀ s s' : State, s.KEYLEN ≠ 0 → s'.KEYLEN = s.KEYLEN →
    (∀ n : Byte, n.toNat < s.KEYLEN.toNat → s'.K.entry n = s.K.entry n) →
    ∃ t t' : State, exec .ksa s = .next t ∧ exec .ksa s' = .next t' ∧
      t'.S = t.S ∧ t'.I = t.I ∧ t'.J = t.J ∧ t'.PHASE = t.PHASE ∧ t'.DOUT = t.DOUT ∧ t'.COUNT = t.COUNT

/-- R122: the KSA does not write `K` or `KEYLEN`, and issued again it gives the same state again. -/
def Obligations.KsaCanBeIssuedAgain : Prop :=
  ∀ s t : State, exec .ksa s = .next t → t.K = s.K ∧ t.KEYLEN = s.KEYLEN ∧ exec .ksa t = .next t

/-- R104 with R102 and R103 (R104 marked derived in the spec): for a source key of any length, SCHEDULE gives the source's `keySchedule`; the engine keeps
the first 256 bytes. -/
def Obligations.KeysOfAnyLengthScheduleAsSource : Prop :=
  ∀ (k : List Byte) (s : State), k ≠ [] → ∃ (t : State) (P : Nat → Nat), serveAll (schedule k) s = .next t ∧
    Source.keySchedule (k.map BitVec.toNat) = .ok P ∧ (∀ n : Byte, (t.S.entry n).toNat = P n.toNat) ∧
    t.KEYLEN.toNat = min k.length 256 ∧ ∀ n : Byte, n.toNat < k.length → k[n.toNat]? = some (t.K.entry n)

/-- R105 (marked derived in the spec): keys with the same cyclic extension schedule alike, from whatever states. -/
def Obligations.PeriodicKeysScheduleAlike : Prop :=
  ∀ (k k' : List Byte) (s s' : State), k ≠ [] → k' ≠ [] →
    (∀ n < 256, k[n % k.length]? = k'[n % k'.length]?) →
    ∃ t t' : State, serveAll (schedule k) s = .next t ∧ serveAll (schedule k') s' = .next t' ∧ t.S = t'.S

/-- R106: what any command but KSA leaves in `S`, `I`, `J`, `PHASE`, `DOUT` and `COUNT` does not depend on `K` or
`KEYLEN`, and CLRKEY and KEYB leave those six as they were. -/
def Obligations.KeyLoadingLeavesStreamAlone : Prop :=
  (∀ (i : Instr) (s t : State) (K : Table) (n : BitVec 9), i ≠ .ksa → exec i s = .next t →
    ∃ u : State, exec i { s with K := K, KEYLEN := n } = .next u ∧ u.S = t.S ∧ u.I = t.I ∧ u.J = t.J ∧
      u.PHASE = t.PHASE ∧ u.DOUT = t.DOUT ∧ u.COUNT = t.COUNT) ∧
  ∀ (i : Instr) (s t : State), (i = .clrkey ∨ ∃ b, i = .keyb b) → exec i s = .next t →
    t.S = s.S ∧ t.I = s.I ∧ t.J = s.J ∧ t.PHASE = s.PHASE ∧ t.DOUT = s.DOUT ∧ t.COUNT = s.COUNT

/-- R143 (marked derived in the spec): from the state a successful KSA leaves, any mix of accesses without KSA and RESET in which `n` commands are KS or
XOR ends with `I = n mod 256` and `COUNT = n mod 2^32`, and the bytes used are the source's `generateKeystream`. -/
def Obligations.StreamPositionFollowsSource : Prop :=
  ∀ (l : List Access) (s : State), s.PHASE = .READY → s.I = 0 → s.J = 0 → s.COUNT = 0 →
    (∀ a ∈ l, (Input.access a).command? ≠ some .ksa ∧ (Input.access a).command? ≠ some .reset) →
    ∃ u : State, serveAll l s = .next u ∧ u.PHASE = .READY ∧
      u.I.toNat = l.countP Access.takesByte % 256 ∧ u.COUNT.toNat = l.countP Access.takesByte % 2 ^ 32 ∧
      (usedBytes l s).map BitVec.toNat =
        Source.generateKeystream (fun n => (s.S.entry (BitVec.ofNat 8 n)).toNat) (l.countP Access.takesByte)

/-- R147: in `READY` any number of KS commands succeed and the count goes on modulo 2^32. -/
def Obligations.KeystreamIsUnbounded : Prop :=
  ∀ (n : Nat) (s : State), s.PHASE = .READY → ∃ u : State, serveAll (keystream n) s = .next u ∧
    u.PHASE = .READY ∧ u.COUNT.toNat = (s.COUNT.toNat + n) % 2 ^ 32 ∧ (n ≠ 0 → u.LASTRES = 0) ∧
    u.E_NOTKEYED = s.E_NOTKEYED

/-- R144 (marked derived in the spec): for every key and every data, from whatever state, TRANSFORM gives exactly the source's `transform(key, data)`,
`InvalidKey` for the empty key included. -/
def Obligations.TransformComputesSourceTransform : Prop :=
  ∀ (k d : List Byte) (s : State), ∃ (t : State) (r : Except Source.InvalidKey (List Byte)),
    transform k d s = .next (t, r) ∧
    r.map (List.map BitVec.toNat) = Source.transform (k.map BitVec.toNat) (d.map BitVec.toNat) ∧
    (k = [] → r = .error .emptyKey ∧ t.LASTRES = 1)

/-- R145 (marked derived in the spec): decrypting the encryption under the same non-empty key gives the data back, whatever the states. -/
def Obligations.TransformRoundTrip : Prop :=
  ∀ (k d : List Byte) (s s' : State), k ≠ [] → ∃ (t t' : State) (c : List Byte),
    encrypt k d s = .next (t, .ok c) ∧ decrypt k c s' = .next (t', .ok d)

/-- R146 (marked derived in the spec): the output has the length of the data, and for empty data the engine is left straight after the KSA. -/
def Obligations.TransformKeepsLength : Prop :=
  (∀ (k d c : List Byte) (s t : State), transform k d s = .next (t, .ok c) → c.length = d.length) ∧
  ∀ (k : List Byte) (s : State), k ≠ [] → ∃ t u : State, transform k [] s = .next (t, .ok []) ∧
    serveAll (schedule k) s = .next u ∧ t = { u with responses := t.responses } ∧ t.COUNT = 0
end

