-- ==== Sys2Proof/Laws/Decode.lean ====
section
/-! SUPPORT. The fields of a word as numbers, the fields of an encoded word, a word with reserved bits 0 is made of its
two other fields, and what the decoder can answer. -/

namespace Sys2Proof

theorem toNat_enc (op d : Byte) : (enc op d).toNat = d.toNat * 256 + op.toNat := by
  have := op.isLt
  have := d.isLt
  simp only [enc, BitVec.toNat_setWidth, BitVec.toNat_append]
  rw [← Nat.shiftLeft_add_eq_or_of_lt (by omega), Nat.shiftLeft_eq]
  omega

theorem toNat_op (w : Word) : (CommandFields.ofWord w).op.toNat = w.toNat % 256 := by
  simp [CommandFields.ofWord]

theorem toNat_data (w : Word) : (CommandFields.ofWord w).data.toNat = w.toNat / 256 % 256 := by
  simp [CommandFields.ofWord, Nat.shiftRight_eq_div_pow]

theorem toNat_rsv (w : Word) : (CommandFields.ofWord w).rsv.toNat = w.toNat / 65536 := by
  have := w.isLt
  simp [CommandFields.ofWord, Nat.shiftRight_eq_div_pow]
  omega

@[simp] theorem ofWord_enc (op d : Byte) : CommandFields.ofWord (enc op d) = { op := op, data := d, rsv := 0 } := by
  have h := toNat_enc op d
  have := op.isLt
  have := d.isLt
  have hop := toNat_op (enc op d)
  have hdata := toNat_data (enc op d)
  have hrsv := toNat_rsv (enc op d)
  rw [h] at hop hdata hrsv
  generalize CommandFields.ofWord (enc op d) = f at hop hdata hrsv ⊢
  obtain ⟨o, e, r⟩ := f
  simp only at hop hdata hrsv
  rw [CommandFields.mk.injEq]
  refine ⟨BitVec.eq_of_toNat_eq ?_, BitVec.eq_of_toNat_eq ?_, BitVec.eq_of_toNat_eq ?_⟩
  · rw [hop]; omega
  · rw [hdata]; omega
  · rw [hrsv]; simp; omega

/-- A word whose reserved bits are 0 is the encoding of its two other fields. -/
theorem eq_enc_of_rsv {w : Word} (h : (CommandFields.ofWord w).rsv = 0) :
    w = enc (CommandFields.ofWord w).op (CommandFields.ofWord w).data := by
  apply BitVec.eq_of_toNat_eq
  have hr := toNat_rsv w
  rw [h] at hr
  rw [toNat_enc, toNat_op, toNat_data]
  simp at hr
  omega

/-- The decoder's answer, by the fields of the word: what R85 says, one case for each way out. -/
theorem decode_cases (w : Word) :
    (decode w = .error .reservedBits ∧ (CommandFields.ofWord w).rsv ≠ 0) ∨
    ((CommandFields.ofWord w).rsv = 0 ∧
      ((∃ i : Instr, decode w = .ok i ∧ i.opcode = (CommandFields.ofWord w).op ∧ i.data = (CommandFields.ofWord w).data) ∨
       (decode w = .error .operandNotZero ∧ (CommandFields.ofWord w).op ∈ opcodesWithoutOperand ∧
          (CommandFields.ofWord w).data ≠ 0) ∨
       (decode w = .error .reservedOpcode ∧ (CommandFields.ofWord w).op ∉ opcodesWithoutOperand ∧
          (CommandFields.ofWord w).op ∉ opcodesWithOperand))) := by
  simp only [decode]
  generalize CommandFields.ofWord w = f
  obtain ⟨op, data, rsv⟩ := f
  by_cases hr : rsv = 0
  · right
    refine ⟨hr, ?_⟩
    simp only [CommandFields.decode, hr, ne_eq, not_true_eq_false, if_false, CommandFields.decode.noOperand]
    by_cases hd : data = 0 <;> simp only [hd, not_true_eq_false, not_false_eq_true, if_false, if_true] <;>
      (repeat' split) <;> simp_all [Instr.opcode, Instr.data, opcodesWithOperand, opcodesWithoutOperand]
  · left
    have hr' : rsv ≠ 0#16 := hr
    simp [CommandFields.decode, hr']

/-- The fields of a command's own word. -/
@[simp] theorem ofWord_encode (i : Instr) :
    CommandFields.ofWord (encode i) = { op := i.opcode, data := i.data, rsv := 0 } := ofWord_enc _ _

/-- A command is its opcode and its data byte (R84). -/
theorem Instr.ext_fields {i j : Instr} (h : i.opcode = j.opcode) (h' : i.data = j.data) : i = j := by
  cases i <;> cases j <;> simp_all [Instr.opcode, Instr.data]

/-- The opcode of a command takes an operand, or its data byte is 0 (R84). -/
theorem Instr.opcode_data (i : Instr) :
    i.opcode ∈ opcodesWithOperand ∨ (i.opcode ∈ opcodesWithoutOperand ∧ i.data = 0) := by
  cases i <;> simp [Instr.opcode, Instr.data, opcodesWithOperand, opcodesWithoutOperand]

/-- A word laid out as `RSV` 0, `DATA`, `OP` (R80) is what `enc` gives (R89). -/
theorem append_eq_enc (b op : Byte) : (0x0000#16 ++ b ++ op : Word) = enc op b := by
  apply BitVec.eq_of_toNat_eq
  have := op.isLt
  have := b.isLt
  rw [toNat_enc, BitVec.toNat_append, BitVec.toNat_append]
  rw [← Nat.shiftLeft_add_eq_or_of_lt (by omega), Nat.shiftLeft_eq]
  simp

end Sys2Proof
end

