-- ==== Sys2Proof/Laws/State.lean ====
section
/-! SUPPORT. One lemma for each field under each shared operation: what the operation leaves there. -/

namespace Sys2Proof.Machine

@[simp] theorem complete_S (s : State) : (complete s).S = s.S := rfl
@[simp] theorem complete_K (s : State) : (complete s).K = s.K := rfl
@[simp] theorem complete_KEYLEN (s : State) : (complete s).KEYLEN = s.KEYLEN := rfl
@[simp] theorem complete_I (s : State) : (complete s).I = s.I := rfl
@[simp] theorem complete_J (s : State) : (complete s).J = s.J := rfl
@[simp] theorem complete_PHASE (s : State) : (complete s).PHASE = s.PHASE := rfl
@[simp] theorem complete_DOUT (s : State) : (complete s).DOUT = s.DOUT := rfl
@[simp] theorem complete_COUNT (s : State) : (complete s).COUNT = s.COUNT := rfl
@[simp] theorem complete_LASTRES (s : State) : (complete s).LASTRES = 0 := rfl
@[simp] theorem complete_E_INVKEY (s : State) : (complete s).E_INVKEY = s.E_INVKEY := rfl
@[simp] theorem complete_E_NOTKEYED (s : State) : (complete s).E_NOTKEYED = s.E_NOTKEYED := rfl
@[simp] theorem complete_E_ILLCMD (s : State) : (complete s).E_ILLCMD = s.E_ILLCMD := rfl
@[simp] theorem complete_E_BUS (s : State) : (complete s).E_BUS = s.E_BUS := rfl
@[simp] theorem complete_pending (s : State) : (complete s).pending = s.pending := rfl
@[simp] theorem complete_responses (s : State) : (complete s).responses = s.responses := rfl
@[simp] theorem complete_draws (s : State) : (complete s).draws = s.draws := rfl

@[simp] theorem clearFlags_S (s : State) : (clearFlags s).S = s.S := rfl
@[simp] theorem clearFlags_K (s : State) : (clearFlags s).K = s.K := rfl
@[simp] theorem clearFlags_KEYLEN (s : State) : (clearFlags s).KEYLEN = s.KEYLEN := rfl
@[simp] theorem clearFlags_I (s : State) : (clearFlags s).I = s.I := rfl
@[simp] theorem clearFlags_J (s : State) : (clearFlags s).J = s.J := rfl
@[simp] theorem clearFlags_PHASE (s : State) : (clearFlags s).PHASE = s.PHASE := rfl
@[simp] theorem clearFlags_DOUT (s : State) : (clearFlags s).DOUT = s.DOUT := rfl
@[simp] theorem clearFlags_COUNT (s : State) : (clearFlags s).COUNT = s.COUNT := rfl
@[simp] theorem clearFlags_LASTRES (s : State) : (clearFlags s).LASTRES = s.LASTRES := rfl
@[simp] theorem clearFlags_E_INVKEY (s : State) : (clearFlags s).E_INVKEY = false := rfl
@[simp] theorem clearFlags_E_NOTKEYED (s : State) : (clearFlags s).E_NOTKEYED = false := rfl
@[simp] theorem clearFlags_E_ILLCMD (s : State) : (clearFlags s).E_ILLCMD = false := rfl
@[simp] theorem clearFlags_E_BUS (s : State) : (clearFlags s).E_BUS = false := rfl
@[simp] theorem clearFlags_pending (s : State) : (clearFlags s).pending = s.pending := rfl
@[simp] theorem clearFlags_responses (s : State) : (clearFlags s).responses = s.responses := rfl
@[simp] theorem clearFlags_draws (s : State) : (clearFlags s).draws = s.draws := rfl

@[simp] theorem raiseError_S (e : CommandError) (s : State) : (raiseError e s).S = s.S := by
  cases e <;> rfl
@[simp] theorem raiseError_K (e : CommandError) (s : State) : (raiseError e s).K = s.K := by
  cases e <;> rfl
@[simp] theorem raiseError_KEYLEN (e : CommandError) (s : State) : (raiseError e s).KEYLEN = s.KEYLEN := by
  cases e <;> rfl
@[simp] theorem raiseError_I (e : CommandError) (s : State) : (raiseError e s).I = s.I := by
  cases e <;> rfl
@[simp] theorem raiseError_J (e : CommandError) (s : State) : (raiseError e s).J = s.J := by
  cases e <;> rfl
@[simp] theorem raiseError_PHASE (e : CommandError) (s : State) : (raiseError e s).PHASE = if e = .INVALID_KEY then .UNKEYED else s.PHASE := by
  cases e <;> rfl
@[simp] theorem raiseError_DOUT (e : CommandError) (s : State) : (raiseError e s).DOUT = s.DOUT := by
  cases e <;> rfl
@[simp] theorem raiseError_COUNT (e : CommandError) (s : State) : (raiseError e s).COUNT = s.COUNT := by
  cases e <;> rfl
@[simp] theorem raiseError_LASTRES (e : CommandError) (s : State) : (raiseError e s).LASTRES = e.code := by
  cases e <;> rfl
@[simp] theorem raiseError_E_INVKEY (e : CommandError) (s : State) : (raiseError e s).E_INVKEY = (e = .INVALID_KEY || s.E_INVKEY) := by
  cases e <;> rfl
@[simp] theorem raiseError_E_NOTKEYED (e : CommandError) (s : State) : (raiseError e s).E_NOTKEYED = (e = .NOT_KEYED || s.E_NOTKEYED) := by
  cases e <;> rfl
@[simp] theorem raiseError_E_ILLCMD (e : CommandError) (s : State) : (raiseError e s).E_ILLCMD = (e = .ILLEGAL_CMD || s.E_ILLCMD) := by
  cases e <;> rfl
@[simp] theorem raiseError_E_BUS (e : CommandError) (s : State) : (raiseError e s).E_BUS = s.E_BUS := by
  cases e <;> rfl
@[simp] theorem raiseError_pending (e : CommandError) (s : State) : (raiseError e s).pending = s.pending := by
  cases e <;> rfl
@[simp] theorem raiseError_responses (e : CommandError) (s : State) : (raiseError e s).responses = s.responses := by
  cases e <;> rfl
@[simp] theorem raiseError_draws (e : CommandError) (s : State) : (raiseError e s).draws = s.draws := by
  cases e <;> rfl

@[simp] theorem respond_S (r : Response) (s : State) : (respond r s).S = s.S := rfl
@[simp] theorem respond_K (r : Response) (s : State) : (respond r s).K = s.K := rfl
@[simp] theorem respond_KEYLEN (r : Response) (s : State) : (respond r s).KEYLEN = s.KEYLEN := rfl
@[simp] theorem respond_I (r : Response) (s : State) : (respond r s).I = s.I := rfl
@[simp] theorem respond_J (r : Response) (s : State) : (respond r s).J = s.J := rfl
@[simp] theorem respond_PHASE (r : Response) (s : State) : (respond r s).PHASE = s.PHASE := rfl
@[simp] theorem respond_DOUT (r : Response) (s : State) : (respond r s).DOUT = s.DOUT := rfl
@[simp] theorem respond_COUNT (r : Response) (s : State) : (respond r s).COUNT = s.COUNT := rfl
@[simp] theorem respond_LASTRES (r : Response) (s : State) : (respond r s).LASTRES = s.LASTRES := rfl
@[simp] theorem respond_E_INVKEY (r : Response) (s : State) : (respond r s).E_INVKEY = s.E_INVKEY := rfl
@[simp] theorem respond_E_NOTKEYED (r : Response) (s : State) : (respond r s).E_NOTKEYED = s.E_NOTKEYED := rfl
@[simp] theorem respond_E_ILLCMD (r : Response) (s : State) : (respond r s).E_ILLCMD = s.E_ILLCMD := rfl
@[simp] theorem respond_E_BUS (r : Response) (s : State) : (respond r s).E_BUS = s.E_BUS := rfl
@[simp] theorem respond_pending (r : Response) (s : State) : (respond r s).pending = s.pending := rfl
@[simp] theorem respond_responses (r : Response) (s : State) : (respond r s).responses = s.responses ++ [r] := rfl
@[simp] theorem respond_draws (r : Response) (s : State) : (respond r s).draws = s.draws := rfl

@[simp] theorem refuseAccess_S (s : State) : (refuseAccess s).S = s.S := rfl
@[simp] theorem refuseAccess_K (s : State) : (refuseAccess s).K = s.K := rfl
@[simp] theorem refuseAccess_KEYLEN (s : State) : (refuseAccess s).KEYLEN = s.KEYLEN := rfl
@[simp] theorem refuseAccess_I (s : State) : (refuseAccess s).I = s.I := rfl
@[simp] theorem refuseAccess_J (s : State) : (refuseAccess s).J = s.J := rfl
@[simp] theorem refuseAccess_PHASE (s : State) : (refuseAccess s).PHASE = s.PHASE := rfl
@[simp] theorem refuseAccess_DOUT (s : State) : (refuseAccess s).DOUT = s.DOUT := rfl
@[simp] theorem refuseAccess_COUNT (s : State) : (refuseAccess s).COUNT = s.COUNT := rfl
@[simp] theorem refuseAccess_LASTRES (s : State) : (refuseAccess s).LASTRES = s.LASTRES := rfl
@[simp] theorem refuseAccess_E_INVKEY (s : State) : (refuseAccess s).E_INVKEY = s.E_INVKEY := rfl
@[simp] theorem refuseAccess_E_NOTKEYED (s : State) : (refuseAccess s).E_NOTKEYED = s.E_NOTKEYED := rfl
@[simp] theorem refuseAccess_E_ILLCMD (s : State) : (refuseAccess s).E_ILLCMD = s.E_ILLCMD := rfl
@[simp] theorem refuseAccess_E_BUS (s : State) : (refuseAccess s).E_BUS = true := rfl
@[simp] theorem refuseAccess_pending (s : State) : (refuseAccess s).pending = s.pending := rfl
@[simp] theorem refuseAccess_responses (s : State) : (refuseAccess s).responses = s.responses ++ [{ rdata := 0, err := true }] := rfl
@[simp] theorem refuseAccess_draws (s : State) : (refuseAccess s).draws = s.draws := rfl

@[simp] theorem startStream_S (s : State) : (startStream s).S = keySchedule s.K s.KEYLEN := rfl
@[simp] theorem startStream_K (s : State) : (startStream s).K = s.K := rfl
@[simp] theorem startStream_KEYLEN (s : State) : (startStream s).KEYLEN = s.KEYLEN := rfl
@[simp] theorem startStream_I (s : State) : (startStream s).I = 0 := rfl
@[simp] theorem startStream_J (s : State) : (startStream s).J = 0 := rfl
@[simp] theorem startStream_PHASE (s : State) : (startStream s).PHASE = .READY := rfl
@[simp] theorem startStream_DOUT (s : State) : (startStream s).DOUT = 0 := rfl
@[simp] theorem startStream_COUNT (s : State) : (startStream s).COUNT = 0 := rfl
@[simp] theorem startStream_LASTRES (s : State) : (startStream s).LASTRES = s.LASTRES := rfl
@[simp] theorem startStream_E_INVKEY (s : State) : (startStream s).E_INVKEY = s.E_INVKEY := rfl
@[simp] theorem startStream_E_NOTKEYED (s : State) : (startStream s).E_NOTKEYED = s.E_NOTKEYED := rfl
@[simp] theorem startStream_E_ILLCMD (s : State) : (startStream s).E_ILLCMD = s.E_ILLCMD := rfl
@[simp] theorem startStream_E_BUS (s : State) : (startStream s).E_BUS = s.E_BUS := rfl
@[simp] theorem startStream_pending (s : State) : (startStream s).pending = s.pending := rfl
@[simp] theorem startStream_responses (s : State) : (startStream s).responses = s.responses := rfl
@[simp] theorem startStream_draws (s : State) : (startStream s).draws = s.draws := rfl

@[simp] theorem emitByte_S (out : Byte → Byte) (s : State) : (emitByte out s).S = (prgaStep s).1.S := rfl
@[simp] theorem emitByte_K (out : Byte → Byte) (s : State) : (emitByte out s).K = s.K := rfl
@[simp] theorem emitByte_KEYLEN (out : Byte → Byte) (s : State) : (emitByte out s).KEYLEN = s.KEYLEN := rfl
@[simp] theorem emitByte_I (out : Byte → Byte) (s : State) : (emitByte out s).I = s.I + 1 := rfl
@[simp] theorem emitByte_J (out : Byte → Byte) (s : State) : (emitByte out s).J = s.J + s.S.entry (s.I + 1) := rfl
@[simp] theorem emitByte_PHASE (out : Byte → Byte) (s : State) : (emitByte out s).PHASE = s.PHASE := rfl
@[simp] theorem emitByte_DOUT (out : Byte → Byte) (s : State) : (emitByte out s).DOUT = out (prgaStep s).2 := rfl
@[simp] theorem emitByte_COUNT (out : Byte → Byte) (s : State) : (emitByte out s).COUNT = s.COUNT + 1 := rfl
@[simp] theorem emitByte_LASTRES (out : Byte → Byte) (s : State) : (emitByte out s).LASTRES = s.LASTRES := rfl
@[simp] theorem emitByte_E_INVKEY (out : Byte → Byte) (s : State) : (emitByte out s).E_INVKEY = s.E_INVKEY := rfl
@[simp] theorem emitByte_E_NOTKEYED (out : Byte → Byte) (s : State) : (emitByte out s).E_NOTKEYED = s.E_NOTKEYED := rfl
@[simp] theorem emitByte_E_ILLCMD (out : Byte → Byte) (s : State) : (emitByte out s).E_ILLCMD = s.E_ILLCMD := rfl
@[simp] theorem emitByte_E_BUS (out : Byte → Byte) (s : State) : (emitByte out s).E_BUS = s.E_BUS := rfl
@[simp] theorem emitByte_pending (out : Byte → Byte) (s : State) : (emitByte out s).pending = s.pending := rfl
@[simp] theorem emitByte_responses (out : Byte → Byte) (s : State) : (emitByte out s).responses = s.responses := rfl
@[simp] theorem emitByte_draws (out : Byte → Byte) (s : State) : (emitByte out s).draws = s.draws := rfl

@[simp] theorem softReset_S (s : State) : (softReset s).S = Table.identity := rfl
@[simp] theorem softReset_K (s : State) : (softReset s).K = s.K := rfl
@[simp] theorem softReset_KEYLEN (s : State) : (softReset s).KEYLEN = 0 := rfl
@[simp] theorem softReset_I (s : State) : (softReset s).I = 0 := rfl
@[simp] theorem softReset_J (s : State) : (softReset s).J = 0 := rfl
@[simp] theorem softReset_PHASE (s : State) : (softReset s).PHASE = .UNKEYED := rfl
@[simp] theorem softReset_DOUT (s : State) : (softReset s).DOUT = 0 := rfl
@[simp] theorem softReset_COUNT (s : State) : (softReset s).COUNT = 0 := rfl
@[simp] theorem softReset_LASTRES (s : State) : (softReset s).LASTRES = 0 := rfl
@[simp] theorem softReset_E_INVKEY (s : State) : (softReset s).E_INVKEY = false := rfl
@[simp] theorem softReset_E_NOTKEYED (s : State) : (softReset s).E_NOTKEYED = false := rfl
@[simp] theorem softReset_E_ILLCMD (s : State) : (softReset s).E_ILLCMD = false := rfl
@[simp] theorem softReset_E_BUS (s : State) : (softReset s).E_BUS = false := rfl
@[simp] theorem softReset_pending (s : State) : (softReset s).pending = s.pending := rfl
@[simp] theorem softReset_responses (s : State) : (softReset s).responses = s.responses := rfl
@[simp] theorem softReset_draws (s : State) : (softReset s).draws = s.draws := rfl

@[simp] theorem hardReset_S (s : State) : (hardReset s).S = Table.identity := rfl
@[simp] theorem hardReset_K (s : State) : (hardReset s).K = Table.freeKey s.draws := rfl
@[simp] theorem hardReset_KEYLEN (s : State) : (hardReset s).KEYLEN = 0 := rfl
@[simp] theorem hardReset_I (s : State) : (hardReset s).I = 0 := rfl
@[simp] theorem hardReset_J (s : State) : (hardReset s).J = 0 := rfl
@[simp] theorem hardReset_PHASE (s : State) : (hardReset s).PHASE = .UNKEYED := rfl
@[simp] theorem hardReset_DOUT (s : State) : (hardReset s).DOUT = 0 := rfl
@[simp] theorem hardReset_COUNT (s : State) : (hardReset s).COUNT = 0 := rfl
@[simp] theorem hardReset_LASTRES (s : State) : (hardReset s).LASTRES = 0 := rfl
@[simp] theorem hardReset_E_INVKEY (s : State) : (hardReset s).E_INVKEY = false := rfl
@[simp] theorem hardReset_E_NOTKEYED (s : State) : (hardReset s).E_NOTKEYED = false := rfl
@[simp] theorem hardReset_E_ILLCMD (s : State) : (hardReset s).E_ILLCMD = false := rfl
@[simp] theorem hardReset_E_BUS (s : State) : (hardReset s).E_BUS = false := rfl
@[simp] theorem hardReset_pending (s : State) : (hardReset s).pending = s.pending := rfl
@[simp] theorem hardReset_responses (s : State) : (hardReset s).responses = s.responses := rfl
@[simp] theorem hardReset_draws (s : State) : (hardReset s).draws = s.draws + 1 := rfl

@[simp] theorem code_invalidKey : CommandError.INVALID_KEY.code = 1 := rfl
@[simp] theorem code_notKeyed : CommandError.NOT_KEYED.code = 2 := rfl
@[simp] theorem code_illegalCmd : CommandError.ILLEGAL_CMD.code = 3 := rfl
@[simp] theorem code_ok : Result.OK.code = 0 := rfl

/-- `appendKey` touches `K` and `KEYLEN` alone. -/
theorem appendKey_eq (b : Byte) (s : State) :
    appendKey b s = { s with K := (appendKey b s).K, KEYLEN := (appendKey b s).KEYLEN } := by
  unfold appendKey
  split <;> rfl

theorem appendKey_K (b : Byte) (s : State) :
    (appendKey b s).K = if s.KEYLEN.toNat < 256 then s.K.put (s.KEYLEN.setWidth 8) b else s.K := by
  unfold appendKey
  split <;> rfl

theorem appendKey_KEYLEN (b : Byte) (s : State) :
    (appendKey b s).KEYLEN = if s.KEYLEN.toNat < 256 then s.KEYLEN + 1 else s.KEYLEN := by
  unfold appendKey
  split <;> rfl

@[simp] theorem appendKey_S (b : Byte) (s : State) : (appendKey b s).S = s.S := by rw [appendKey_eq]
@[simp] theorem appendKey_I (b : Byte) (s : State) : (appendKey b s).I = s.I := by rw [appendKey_eq]
@[simp] theorem appendKey_J (b : Byte) (s : State) : (appendKey b s).J = s.J := by rw [appendKey_eq]
@[simp] theorem appendKey_PHASE (b : Byte) (s : State) : (appendKey b s).PHASE = s.PHASE := by rw [appendKey_eq]
@[simp] theorem appendKey_DOUT (b : Byte) (s : State) : (appendKey b s).DOUT = s.DOUT := by rw [appendKey_eq]
@[simp] theorem appendKey_COUNT (b : Byte) (s : State) : (appendKey b s).COUNT = s.COUNT := by rw [appendKey_eq]
@[simp] theorem appendKey_LASTRES (b : Byte) (s : State) : (appendKey b s).LASTRES = s.LASTRES := by rw [appendKey_eq]
@[simp] theorem appendKey_E_INVKEY (b : Byte) (s : State) : (appendKey b s).E_INVKEY = s.E_INVKEY := by rw [appendKey_eq]
@[simp] theorem appendKey_E_NOTKEYED (b : Byte) (s : State) : (appendKey b s).E_NOTKEYED = s.E_NOTKEYED := by rw [appendKey_eq]
@[simp] theorem appendKey_E_ILLCMD (b : Byte) (s : State) : (appendKey b s).E_ILLCMD = s.E_ILLCMD := by rw [appendKey_eq]
@[simp] theorem appendKey_E_BUS (b : Byte) (s : State) : (appendKey b s).E_BUS = s.E_BUS := by rw [appendKey_eq]
@[simp] theorem appendKey_pending (b : Byte) (s : State) : (appendKey b s).pending = s.pending := by rw [appendKey_eq]
@[simp] theorem appendKey_responses (b : Byte) (s : State) : (appendKey b s).responses = s.responses := by rw [appendKey_eq]
@[simp] theorem appendKey_draws (b : Byte) (s : State) : (appendKey b s).draws = s.draws := by rw [appendKey_eq]

/-- `raiseError` as one record update for each error (R201). -/
theorem raiseError_eq (e : CommandError) (s : State) :
    raiseError e s =
      match e with
      | .INVALID_KEY => { s with LASTRES := 1, E_INVKEY := true, PHASE := .UNKEYED }
      | .NOT_KEYED => { s with LASTRES := 2, E_NOTKEYED := true }
      | .ILLEGAL_CMD => { s with LASTRES := 3, E_ILLCMD := true } := by
  cases e <;> rfl

end Sys2Proof.Machine
end

