-- ==== Sys2Proof/Laws/Table.lean ====
section
/-! SUPPORT. Reading an entry after each table operation, tables with equal entries are equal, and the rounds of the key
schedule read only the effective key. -/

namespace Sys2Proof.Machine

theorem Table.ext_entry {T U : Table} (h : ∀ n, T.entry n = U.entry n) : T = U := by
  apply Vector.ext
  intro i hi
  have := h (BitVec.ofNat 8 i)
  simpa [Table.entry, Nat.mod_eq_of_lt hi] using this

theorem Table.entry_put (T : Table) (a v n : Byte) : (T.put a v).entry n = if n = a then v else T.entry n := by
  simp only [Table.entry, Table.put, Vector.getElem_set, eq_comm (a := a.toNat), BitVec.toNat_inj]

theorem Table.entry_swap (T : Table) (a b n : Byte) :
    (T.swap a b).entry n = if n = b then T.entry a else if n = a then T.entry b else T.entry n := by
  simp only [Table.swap, Table.entry_put]

@[simp] theorem Table.entry_ofFun (f : Byte → Byte) (n : Byte) : (Table.ofFun f).entry n = f n := by
  simp [Table.entry, Table.ofFun, indices]

@[simp] theorem Table.entry_identity (n : Byte) : Table.identity.entry n = n := by
  simp [Table.identity]

@[simp] theorem Table.entry_freeKey (d : Nat) (n : Byte) : (Table.freeKey d).entry n = Config.keyAfterReset d n := by
  simp [Table.freeKey]

/-- `swap` with itself changes nothing (R11). -/
theorem Table.swap_self (T : Table) (a : Byte) : T.swap a a = T := by
  apply Table.ext_entry
  intro n
  rw [Table.entry_swap]
  split <;> simp_all

theorem mem_indices (n : Byte) : n ∈ indices := by
  simp only [indices, List.mem_map, List.mem_range]
  exact ⟨n.toNat, n.isLt, by simp⟩

/-- The schedule depends on the effective key alone (R103). -/
theorem keySchedule_congr {K K' : Table} {l l' : BitVec 9}
    (h : ∀ n, effectiveKey K l n = effectiveKey K' l' n) : keySchedule K l = keySchedule K' l' := by
  have : ksaRound K l = ksaRound K' l' := by
    funext p i
    simp [ksaRound, h]
  unfold keySchedule
  rw [this]

end Sys2Proof.Machine
end

