-- ==== Sys2Proof/Laws/Exec.lean ====
section
/-! SUPPORT. What a command can do, said once: every meaning answers a next state, and which one; what one PRGA step does;
what every command keeps. -/

namespace Sys2Proof.Machine

/-- What each command leaves, one case for each way out of its meaning. -/
theorem exec_cases {i : Instr} {s t : State} (h : exec i s = .next t) :
    (i = .nop ∧ t = complete s) ∨
    (i = .reset ∧ t = complete (softReset s)) ∨
    (i = .clrerr ∧ t = complete (clearFlags s)) ∨
    (i = .clrkey ∧ t = complete { s with KEYLEN := 0 }) ∨
    (∃ b, i = .keyb b ∧ t = complete (appendKey b s)) ∨
    (i = .ksa ∧ s.KEYLEN = 0 ∧ t = raiseError .INVALID_KEY s) ∨
    (i = .ksa ∧ s.KEYLEN ≠ 0 ∧ t = complete (startStream s)) ∨
    ((i = .ks ∨ ∃ d, i = .xor d) ∧ s.PHASE = .UNKEYED ∧ t = raiseError .NOT_KEYED s) ∨
    (i = .ks ∧ s.PHASE = .READY ∧ t = complete (emitByte (fun k => k) s)) ∨
    (∃ d, i = .xor d ∧ s.PHASE = .READY ∧ t = complete (emitByte (fun k => d ^^^ k) s)) := by
  cases i with
  | nop =>
    obtain rfl : complete s = t := Host.Outcome.next.inj h
    simp
  | reset =>
    obtain rfl : complete (softReset s) = t := Host.Outcome.next.inj h
    simp
  | clrerr =>
    obtain rfl : complete (clearFlags s) = t := Host.Outcome.next.inj h
    simp
  | clrkey =>
    obtain rfl : complete { s with KEYLEN := 0 } = t := Host.Outcome.next.inj h
    simp
  | keyb b =>
    obtain rfl : complete (appendKey b s) = t := Host.Outcome.next.inj h
    simp
  | ksa =>
    simp only [exec, execKsa] at h
    split at h <;> obtain rfl := Host.Outcome.next.inj h
    · exact .inr (.inr (.inr (.inr (.inr (.inl ⟨rfl, ‹_›, rfl⟩)))))
    · exact .inr (.inr (.inr (.inr (.inr (.inr (.inl ⟨rfl, ‹_›, rfl⟩))))))
  | ks =>
    simp only [exec, execKs] at h
    split at h <;> obtain rfl := Host.Outcome.next.inj h <;> simp [*]
  | xor d =>
    simp only [exec, execXor] at h
    split at h <;> obtain rfl := Host.Outcome.next.inj h <;> simp [*]

/-- Every command answers a next state, in every state (R200). -/
theorem exec_next (i : Instr) (s : State) : ∃ t, exec i s = .next t := by
  cases i with
  | nop => exact ⟨_, rfl⟩
  | reset => exact ⟨_, rfl⟩
  | clrerr => exact ⟨_, rfl⟩
  | clrkey => exact ⟨_, rfl⟩
  | keyb b => exact ⟨_, rfl⟩
  | ksa =>
    simp only [exec, execKsa]
    split <;> exact ⟨_, rfl⟩
  | ks =>
    simp only [exec, execKs]
    split <;> exact ⟨_, rfl⟩
  | xor d =>
    simp only [exec, execXor]
    split <;> exact ⟨_, rfl⟩

/-- The permutation of one PRGA step is one swap (R140, R148). -/
theorem prgaStep_S (s : State) :
    (prgaStep s).1.S = s.S.swap (s.I + 1) (s.J + s.S.entry (s.I + 1)) := rfl

/-- The byte of one PRGA step, from the permutation before it (R140). -/
theorem prgaStep_byte (s : State) :
    (prgaStep s).2 = (prgaStep s).1.S.entry
      (s.S.entry (s.J + s.S.entry (s.I + 1)) + s.S.entry (s.I + 1)) := by
  have h : (prgaStep s).2 = (prgaStep s).1.S.entry
      ((prgaStep s).1.S.entry (s.I + 1) + (prgaStep s).1.S.entry (s.J + s.S.entry (s.I + 1))) := rfl
  rw [h, prgaStep_S, Table.entry_swap _ _ _ (s.I + 1), Table.entry_swap _ _ _ (s.J + s.S.entry (s.I + 1))]
  by_cases e : s.I + 1 = s.J + s.S.entry (s.I + 1)
  · rw [if_pos e, if_pos rfl, ← e]
  · rw [if_neg e, if_pos rfl, if_pos rfl]

/-- A step with the same `S`, `I` and `J` gives the same permutation and byte. -/
theorem prgaStep_congr {s t : State} (hS : s.S = t.S) (hI : s.I = t.I) (hJ : s.J = t.J) :
    (prgaStep s).1.S = (prgaStep t).1.S ∧ (prgaStep s).2 = (prgaStep t).2 := by
  simp [prgaStep, hS, hI, hJ]

/-- A command touches nothing of the bus side. -/
theorem exec_bus {i : Instr} {s t : State} (h : exec i s = .next t) :
    t.pending = s.pending ∧ t.responses = s.responses ∧ t.draws = s.draws := by
  rcases exec_cases h with ⟨-, rfl⟩ | ⟨-, rfl⟩ | ⟨-, rfl⟩ | ⟨-, rfl⟩ | ⟨b, -, rfl⟩ | ⟨-, -, rfl⟩ | ⟨-, -, rfl⟩ |
    ⟨-, -, rfl⟩ | ⟨-, -, rfl⟩ | ⟨d, -, -, rfl⟩ <;> simp

end Sys2Proof.Machine
end

