-- ==== Sys2Proof/Laws/Step.lean ====
section
/-! SUPPORT. What the answer to a word, an access, an input and a step can be, said once. -/

namespace Sys2Proof.Machine

/-- A word written to `CMD`: an illegal word raises, a legal one runs its command (R85, R86). -/
theorem executeWord_cases {w : Word} {s t : State} (h : executeWord w s = .next t) :
    (∃ i, decode w = .ok i ∧ exec i s = .next t) ∨
    (∃ e, decode w = .error e ∧ t = raiseError .ILLEGAL_CMD s) := by
  unfold executeWord at h
  split at h
  · exact .inr ⟨_, ‹_›, by simpa [eq_comm] using h⟩
  · exact .inl ⟨_, ‹_›, h⟩

theorem executeWord_next (w : Word) (s : State) : ∃ t, executeWord w s = .next t := by
  unfold executeWord
  split
  · exact ⟨_, rfl⟩
  · exact exec_next _ s

/-- The four ways an access is answered (R52 to R55). -/
theorem serve_cases {a : Access} {s t : State} (h : serve a s = .next t) :
    (∃ off size r, a = .read off size ∧ readTarget off size = some r ∧
      t = respond { rdata := r.value s, err := false } s) ∨
    (a.accepted = false ∧ t = refuseAccess s) ∨
    (∃ off size w i u, a = .write off size w ∧ writeAccepted off size = true ∧ decode w = .ok i ∧
      exec i s = .next u ∧ t = respond { rdata := 0, err := false } u) ∨
    (∃ off size w e, a = .write off size w ∧ writeAccepted off size = true ∧ decode w = .error e ∧
      t = respond { rdata := 0, err := false } (raiseError .ILLEGAL_CMD s)) := by
  cases a with
  | read off size =>
    simp only [serve] at h
    split at h
    · exact .inl ⟨off, size, _, rfl, ‹_›, by simpa [eq_comm] using h⟩
    · exact .inr (.inl ⟨by simp [Access.accepted, *], by simpa [eq_comm] using h⟩)
  | write off size w =>
    simp only [serve] at h
    split at h
    · obtain ⟨u, hu⟩ := executeWord_next w s
      rw [hu] at h
      obtain rfl : respond { rdata := 0, err := false } u = t := by simpa [acknowledge] using h
      rcases executeWord_cases hu with ⟨i, hi, hx⟩ | ⟨e, he, rfl⟩
      · exact .inr (.inr (.inl ⟨off, size, w, i, u, rfl, ‹_›, hi, hx, rfl⟩))
      · exact .inr (.inr (.inr ⟨off, size, w, e, rfl, ‹_›, he, rfl⟩))
    · exact .inr (.inl ⟨by simp [Access.accepted, *], by simpa [eq_comm] using h⟩)

/-- Every access is answered by a next state (R200). -/
theorem serve_next (a : Access) (s : State) : ∃ t, serve a s = .next t := by
  cases a with
  | read off size =>
    simp only [serve]
    split <;> exact ⟨_, rfl⟩
  | write off size w =>
    simp only [serve]
    split
    · obtain ⟨u, hu⟩ := executeWord_next w s
      exact ⟨_, by rw [hu]; rfl⟩
    · exact ⟨_, rfl⟩

/-- An access gives one response and touches nothing else of the bus side (R56). -/
theorem serve_bus {a : Access} {s t : State} (h : serve a s = .next t) :
    t.pending = s.pending ∧ t.draws = s.draws ∧ ∃ r, t.responses = s.responses ++ [r] := by
  rcases serve_cases h with ⟨off, size, r, -, -, rfl⟩ | ⟨-, rfl⟩ | ⟨off, size, w, i, u, -, -, -, hu, rfl⟩ |
    ⟨off, size, w, e, -, -, -, rfl⟩
  · simp
  · simp
  · simp [exec_bus hu]
  · simp

/-- The access in flight at reset leaves the bus side as it was (R231). -/
theorem abandonAccess_bus (a : Access) (s : State) :
    (abandonAccess a s).pending = s.pending ∧ (abandonAccess a s).responses = s.responses ∧
      (abandonAccess a s).draws = s.draws := by
  obtain ⟨t, ht⟩ := serve_next a s
  have := serve_bus ht
  unfold abandonAccess
  rw [ht]
  split <;> simp [this]

/-- An access in flight at reset makes no difference to the state the reset leaves (R231). -/
theorem hardReset_abandonAccess (a : Access) (s : State) : hardReset (abandonAccess a s) = hardReset s := by
  simp [hardReset, abandonAccess_bus a s]

/-- What an input does: it is the reset input, or an access. -/
theorem serveInput_cases {x : Input} {s t : State} (h : serveInput x s = .next t) :
    (∃ a, x = .access a ∧ serve a s = .next t) ∨ (x.isReset = true ∧ t = hardReset s) := by
  cases x with
  | access a => exact .inl ⟨a, rfl, h⟩
  | reset => exact .inr ⟨rfl, by simpa [serveInput, eq_comm] using h⟩
  | resetDuring a =>
    exact .inr ⟨rfl, by simpa [serveInput, hardReset_abandonAccess, eq_comm] using h⟩

theorem serveInput_next (x : Input) (s : State) : ∃ t, serveInput x s = .next t := by
  cases x with
  | access a => exact serve_next a s
  | reset => exact ⟨_, rfl⟩
  | resetDuring a => exact ⟨_, rfl⟩

/-- What a step does: nothing when no input is pending (R218), else it takes the next input off the list and answers it. -/
theorem step_cases {s t : State} (h : step s = .next t) :
    (s.pending = [] ∧ t = s) ∨
    (∃ x rest, s.pending = x :: rest ∧ serveInput x { s with pending := rest } = .next t) := by
  unfold step serveNext at h
  split at h
  · exact .inl ⟨‹_›, by simpa [eq_comm] using h⟩
  · exact .inr ⟨_, _, ‹_›, h⟩

theorem step_next (s : State) : ∃ t, step s = .next t := by
  unfold step serveNext
  split
  · exact ⟨_, rfl⟩
  · exact serveInput_next _ _

theorem step_of_pending {s : State} {x : Input} {rest : List Input} (h : s.pending = x :: rest) :
    step s = serveInput x { s with pending := rest } := by
  simp [step, serveNext, h]

/-- One step more of a run, for any machine. -/
theorem coreRun_succ {M : Host.Core} {n : Nat} {s t : M.State} (h : M.step s = .next t) :
    M.run (n + 1) s = M.run n t := by
  rw [Host.Core.run.eq_def]
  simp [h]

/-- One step more of a run of the engine. -/
theorem run_succ {n : Nat} {s t : State} (h : step s = .next t) :
    Host.Core.run Sys2Proof.core (n + 1) s = Host.Core.run Sys2Proof.core n t := coreRun_succ h

/-- Lists of accesses, one after the other (R63). -/
theorem serveAll_cons {a : Access} {l : List Access} {s t : State} (h : serve a s = .next t) :
    serveAll (a :: l) s = serveAll l t := by
  simp [serveAll, h]

theorem serveAll_append {l m : List Access} {s t : State} (h : serveAll l s = .next t) :
    serveAll (l ++ m) s = serveAll m t := by
  induction l generalizing s with
  | nil => simpa [serveAll, eq_comm] using congrArg (serveAll m) (by simpa [serveAll] using h : s = t)
  | cons a l ih =>
    obtain ⟨u, hu⟩ := serve_next a s
    rw [List.cons_append, serveAll_cons hu]
    exact ih (by rwa [serveAll_cons hu] at h)

theorem serveAll_next (l : List Access) (s : State) : ∃ t, serveAll l s = .next t := by
  induction l generalizing s with
  | nil => exact ⟨s, rfl⟩
  | cons a l ih =>
    obtain ⟨u, hu⟩ := serve_next a s
    rw [serveAll_cons hu]
    exact ih u

/-- A word write of `CMD` executes its word and is acknowledged (R55, R201). -/
theorem serve_writeCmd (w : Word) (s : State) : serve (writeCmd w) s = acknowledge (executeWord w s) := by
  have : writeAccepted cmdOffset .word = true := by decide
  simp [serve, writeCmd, this]

/-- What a command does has nothing to do with what is pending. -/
theorem exec_pending {i : Instr} {s t : State} (p : List Input) (h : exec i s = .next t) :
    exec i { s with pending := p } = .next { t with pending := p } := by
  cases i with
  | nop => obtain rfl := Host.Outcome.next.inj h; rfl
  | reset => obtain rfl := Host.Outcome.next.inj h; rfl
  | clrerr => obtain rfl := Host.Outcome.next.inj h; rfl
  | clrkey => obtain rfl := Host.Outcome.next.inj h; rfl
  | keyb b =>
    obtain rfl : complete (appendKey b s) = t := Host.Outcome.next.inj h
    simp only [exec, execKeyb, appendKey]
    split <;> rfl
  | ksa =>
    simp only [exec, execKsa] at h ⊢
    split at h <;> obtain rfl := Host.Outcome.next.inj h
    · rename_i hk
      rw [if_pos (show _ = _ from hk)]
      rfl
    · rename_i hk
      rw [if_neg (show ¬ _ = _ from hk)]
      rfl
  | ks =>
    simp only [exec, execKs] at h ⊢
    split at h <;> obtain rfl := Host.Outcome.next.inj h <;> rename_i hk <;> rfl
  | xor d =>
    simp only [exec, execXor] at h ⊢
    split at h <;> obtain rfl := Host.Outcome.next.inj h <;> rename_i hk <;> rfl

/-- The answer to an access has nothing to do with what is pending (R63). -/
theorem serve_pending {a : Access} {s t : State} (p : List Input) (h : serve a s = .next t) :
    serve a { s with pending := p } = .next { t with pending := p } := by
  cases a with
  | read off size =>
    simp only [serve] at h ⊢
    split at h <;> obtain rfl := Host.Outcome.next.inj h
    · rename_i r _
      cases r <;> rfl
    · rfl
  | write off size w =>
    simp only [serve] at h ⊢
    by_cases ha : writeAccepted off size = true
    · rw [if_pos ha] at h ⊢
      obtain ⟨u, hu⟩ := executeWord_next w s
      rw [hu] at h
      obtain rfl := Host.Outcome.next.inj h
      have : executeWord w { s with pending := p } = .next { u with pending := p } := by
        rcases executeWord_cases hu with ⟨i, hi, hx⟩ | ⟨e, he, rfl⟩
        · simp only [executeWord, hi]
          exact exec_pending p hx
        · simp only [executeWord, he]
          rfl
      rw [this]
      rfl
    · rw [if_neg ha] at h ⊢
      obtain rfl := Host.Outcome.next.inj h
      rfl

end Sys2Proof.Machine
end

