-- ==== Sys2Proof/Laws/Bus.lean ====
section
/-! SUPPORT. Offsets and accesses: alignment as a number, which offsets name a register, what a read of a register and a
refused access give. -/

namespace Sys2Proof.Machine

theorem extractLsb_low_two_eq_zero_iff (off : Offset) : off.extractLsb' 0 2 = 0 ↔ off.toNat % 4 = 0 := by
  rw [← BitVec.toNat_inj]
  simp

/-- The readable offsets of R36, among the aligned ones. -/
theorem atOffset_isSome_iff (off : Offset) :
    (Register.atOffset off).isSome = true ↔
      off.toNat ∈ [0x004, 0x008, 0x00C, 0x010, 0x014, 0x018] ∨ 0x400 ≤ off.toNat ∧ off.toNat ≤ 0x7FC := by
  unfold Register.atOffset
  simp only [← BitVec.toNat_inj, BitVec.le_def]
  (repeat' split) <;> simp_all

/-- The register at a register's own offset. -/
@[simp] theorem readTarget_offset (r : Register) : readTarget r.offset .word = some r := by
  cases r with
  | STATUS => rfl
  | DOUT => rfl
  | KEYLEN => rfl
  | INDEX => rfl
  | COUNT => rfl
  | ID => rfl
  | SWIN n =>
    revert n
    decide +kernel

/-- What `RD <reg>` gives (R54, R91). -/
theorem serve_rd (r : Register) (s : State) : serve (rd r) s = .next (respond ⟨r.value s, false⟩ s) := by
  simp [serve, rd]

/-- An accepted read gives the register's value and changes nothing but the list of responses (R54). -/
theorem serve_read {off : Offset} {size : AccessSize} {reg : Register} (h : readTarget off size = some reg) (s : State) :
    serve (.read off size) s = .next (respond ⟨reg.value s, false⟩ s) := by
  simp only [serve, h]

/-- A register's value has nothing to do with the responses given. -/
@[simp] theorem Register.value_responses (r : Register) (s : State) (l : List Response) :
    r.value { s with responses := l } = r.value s := by
  cases r <;> rfl

/-- A list of accepted reads adds responses and changes nothing else (R54, R63). -/
theorem serveAll_reads {l : List Access} (h : ∀ a ∈ l, ∃ off size, a = .read off size ∧ a.accepted = true) (s : State) :
    ∃ m, serveAll l s = .next { s with responses := s.responses ++ m } := by
  induction l generalizing s with
  | nil => exact ⟨[], by simp [serveAll]⟩
  | cons a l ih =>
    obtain ⟨off, size, rfl, ha⟩ := h a (by simp)
    obtain ⟨reg, hr⟩ := Option.isSome_iff_exists.1 (by simpa [Access.accepted] using ha)
    obtain ⟨m, hm⟩ := ih (fun b hb => h b (List.mem_cons_of_mem _ hb)) (respond ⟨reg.value s, false⟩ s)
    exact ⟨⟨reg.value s, false⟩ :: m, by rw [serveAll_cons (serve_read hr s), hm]; simp [respond]⟩

/-- A refused access, whatever it is (R206). -/
theorem serve_refused {a : Access} (h : a.accepted = false) (s : State) : serve a s = .next (refuseAccess s) := by
  cases a with
  | read off size =>
    simp only [Access.accepted, Option.isSome_eq_false_iff, Option.isNone_iff_eq_none] at h
    simp only [serve, h]
  | write off size v =>
    simp only [Access.accepted] at h
    simp only [serve, h]
    rfl

/-- A refused access executes no command. -/
theorem command_of_refused {a : Access} (h : a.accepted = false) : (Input.access a).command? = none := by
  cases a with
  | read off size => rfl
  | write off size w =>
    simp only [Access.accepted] at h
    simp [Input.command?, h]

/-- A word the decoder reads no command from raises `ILLEGAL_CMD` and does nothing else (R85, R86). -/
theorem raisesIllegal_of_error {w : Word} {e : Illegal} (h : decode w = .error e) : RaisesIllegal w := by
  intro s
  simp [executeWord, h, raiseError_eq]

end Sys2Proof.Machine
end

