-- ==== Sys2Proof/Laws/Invariant.lean ====
section
/-! SUPPORT. The induction of every invariant, packaged once; permutations under a swap; the loaded key; the effective key;
what one PRGA step does, from the fields it leaves. -/

namespace Sys2Proof.Machine

/-- A property is kept by every step if commands, the illegal word, a response, the flag of a refused access and a change
of the pending inputs keep it, and the reset input establishes it. -/
theorem step_keeps {P : State → Prop} (hexec : ∀ i s t, exec i s = .next t → P s → P t)
    (hill : ∀ s, P s → P (raiseError .ILLEGAL_CMD s)) (hresp : ∀ r s, P s → P (respond r s))
    (hbus : ∀ s, P s → P { s with E_BUS := true }) (hres : ∀ s, P (hardReset s))
    (hpend : ∀ p s, P s → P { s with pending := p }) {s t : State} (hs : P s) (h : step s = .next t) : P t := by
  rcases step_cases h with ⟨-, rfl⟩ | ⟨x, rest, hp, hx⟩
  · exact hs
  · rcases serveInput_cases hx with ⟨a, rfl, ha⟩ | ⟨-, rfl⟩
    · have hs' := hpend rest s hs
      rcases serve_cases ha with ⟨off, size, r, -, -, rfl⟩ | ⟨-, rfl⟩ | ⟨off, size, w, i, u, -, -, -, hu, rfl⟩ |
        ⟨off, size, w, e, -, -, -, rfl⟩
      · exact hresp _ _ hs'
      · exact hresp _ _ (hbus _ hs')
      · exact hresp _ _ (hexec _ _ _ hu hs')
      · exact hresp _ _ (hill _ hs')
    · exact hres _

/-- A step on a pending input: an access is served, or the reset input leaves the reset state. -/
theorem step_of_pending_cases {s t : State} {x : Input} {rest : List Input} (hp : s.pending = x :: rest)
    (h : step s = .next t) :
    (∃ a, x = .access a ∧ serve a { s with pending := rest } = .next t) ∨
    (x.isReset = true ∧ t = hardReset { s with pending := rest }) := by
  rw [step_of_pending hp] at h
  exact serveInput_cases h

theorem Table.isPermutation_identity : Table.identity.IsPermutation :=
  ⟨fun a b h => by simpa using h, fun v => ⟨v, by simp⟩⟩

/-- A swap keeps a permutation a permutation (R22). -/
theorem Table.IsPermutation.swap {T : Table} (h : T.IsPermutation) (a b : Byte) : (T.swap a b).IsPermutation := by
  let f : Byte → Byte := fun n => if n = b then a else if n = a then b else n
  have key : ∀ n, (T.swap a b).entry n = T.entry (f n) := by
    intro n
    rw [Table.entry_swap]
    simp only [f]
    split
    · rfl
    · split <;> rfl
  have inv : ∀ n, f (f n) = n := by
    intro n
    by_cases h1 : n = b <;> by_cases h2 : n = a <;> by_cases h3 : a = b <;> simp_all [f]
  refine ⟨?_, ?_⟩
  · intro x y e
    rw [key, key] at e
    rw [← inv x, ← inv y, h.1 _ _ e]
  · intro v
    obtain ⟨n, hn⟩ := h.2 v
    exact ⟨f n, by rw [key, inv, hn]⟩

theorem State.HoldsKey.congr {s t : State} {h : List Byte} (hs : s.HoldsKey h) (hK : t.K = s.K)
    (hl : t.KEYLEN = s.KEYLEN) : t.HoldsKey h := by
  unfold State.HoldsKey at *
  rw [hK, hl]
  exact hs

theorem State.holdsKey_nil {s : State} (h : s.KEYLEN = 0) : s.HoldsKey [] := by
  unfold State.HoldsKey
  rw [h]
  exact ⟨rfl, fun n h => by simp at h⟩

/-- The effective key reads entries below `KEYLEN` alone (R103). -/
theorem effectiveKey_congr {K K' : Table} {l : BitVec 9} (h0 : l ≠ 0)
    (hk : ∀ n : Byte, n.toNat < l.toNat → K.entry n = K'.entry n) (n : Byte) :
    effectiveKey K l n = effectiveKey K' l n := by
  apply hk
  have hpos : 0 < l.toNat := Nat.pos_iff_ne_zero.2 fun e => h0 (BitVec.eq_of_toNat_eq e)
  have := Nat.mod_lt n.toNat hpos
  have := Nat.mod_le n.toNat l.toNat
  have := n.isLt
  simp
  omega

/-- What a PRGA step does, from the indices and the permutation it leaves (R140). -/
theorem prgaResult_of_eq {s t : State} (hI : t.I = s.I + 1) (hJ : t.J = s.J + s.S.entry (s.I + 1))
    (hS : t.S = (prgaStep s).1.S) : PrgaResult s t (prgaStep s).2 := by
  have hS' : t.S = s.S.swap t.I t.J := by rw [hS, hI, hJ]; rfl
  refine ⟨hI, by rw [hJ, hI], ?_, ?_, ?_, ?_⟩
  · rw [hS', Table.entry_swap]
    split <;> simp_all
  · rw [hS', Table.entry_swap, if_pos rfl]
  · intro n h h'
    rw [hS', Table.entry_swap, if_neg h', if_neg h]
  · rw [hS, hI, hJ]
    rfl

end Sys2Proof.Machine
end

