-- ==== Sys2Proof/Laws/PerInstr.lean ====
section
/-! SUPPORT. A statement about each command as syntax: the fields of its word are what R86 calls legal. -/

namespace Sys2Proof.Laws

/-- The word of the command has no reserved bit, one of the eight opcodes, and no data where it takes none (R84, R86). -/
def EncodedLegal.Statement (i : Instr) : Prop := (CommandFields.ofWord (encode i)).legal = true

theorem EncodedLegal.nop : EncodedLegal.Statement .nop := rfl

theorem EncodedLegal.reset : EncodedLegal.Statement .reset := rfl

theorem EncodedLegal.clrerr : EncodedLegal.Statement .clrerr := rfl

theorem EncodedLegal.clrkey : EncodedLegal.Statement .clrkey := rfl

theorem EncodedLegal.keyb (b : Byte) : EncodedLegal.Statement (.keyb b) := by
  simp [EncodedLegal.Statement, CommandFields.legal, Instr.opcode, opcodesWithOperand]

theorem EncodedLegal.ksa : EncodedLegal.Statement .ksa := rfl

theorem EncodedLegal.ks : EncodedLegal.Statement .ks := rfl

theorem EncodedLegal.xor (d : Byte) : EncodedLegal.Statement (.xor d) := by
  simp [EncodedLegal.Statement, CommandFields.legal, Instr.opcode, opcodesWithOperand]

end Sys2Proof.Laws
end

