-- ==== Sys2Proof/Laws/Source.lean ====
section
/-! SUPPORT. The engine's tables and bytes beside the source's functions and numbers: the same swap, the same rounds, the
same PRGA step. -/

namespace Sys2Proof.Machine

/-- A table holds what a function of the source says, entry by entry. -/
def Table.Agrees (T : Table) (P : Nat → Nat) : Prop := ∀ n : Byte, (T.entry n).toNat = P n.toNat

theorem Table.Agrees.swap {T : Table} {P : Nat → Nat} (h : T.Agrees P) (a b : Byte) :
    (T.swap a b).Agrees (Source.swap P a.toNat b.toNat) := by
  intro n
  rw [Table.entry_swap, Source.swap]
  simp only [BitVec.toNat_inj]
  by_cases hb : n = b <;> by_cases ha : n = a
  · rw [if_pos hb, if_pos ha, ← hb, ha, h]
  · rw [if_pos hb, if_neg ha, if_pos hb, h]
  · rw [if_neg hb, if_pos ha, if_pos ha, h]
  · rw [if_neg hb, if_neg ha, if_neg ha, if_neg hb, h]

/-- The engine's first `m` rounds of R120 beside the source's, for a key with the same effective bytes. -/
theorem ksaRounds_agree {K : Table} {len : BitVec 9} {key : List Nat}
    (h : ∀ n : Byte, (effectiveKey K len n).toNat = key.getD (n.toNat % key.length) 0) (m : Nat) (hm : m ≤ 256) :
    (((List.range m).map (BitVec.ofNat 8)).foldl (ksaRound K len) (Table.identity, 0)).1.Agrees (Source.ksaRounds key m).1 ∧
      (((List.range m).map (BitVec.ofNat 8)).foldl (ksaRound K len) (Table.identity, 0)).2.toNat
        = (Source.ksaRounds key m).2 := by
  induction m with
  | zero => exact ⟨fun n => by simp [Source.ksaRounds], rfl⟩
  | succ m ih =>
    obtain ⟨hS, hj⟩ := ih (by omega)
    have hm' : (BitVec.ofNat 8 m).toNat = m := by simp; omega
    have e : Source.ksaRounds key (m + 1) = Source.ksaRound key (Source.ksaRounds key m) m := by
      simp [Source.ksaRounds, List.range_succ]
    rw [List.range_succ, List.map_append, List.foldl_append, e]
    simp only [List.map_cons, List.map_nil, List.foldl_cons, List.foldl_nil]
    generalize ((List.range m).map (BitVec.ofNat 8)).foldl (ksaRound K len) (Table.identity, 0) = p at hS hj ⊢
    generalize Source.ksaRounds key m = q at hS hj ⊢
    have hj' : (p.2 + p.1.entry (BitVec.ofNat 8 m) + effectiveKey K len (BitVec.ofNat 8 m)).toNat
        = (q.2 + q.1 m + key.getD (m % key.length) 0) % 256 := by
      rw [BitVec.toNat_add, BitVec.toNat_add, h, hS, hj, hm']
      omega
    refine ⟨?_, hj'⟩
    have := hS.swap (BitVec.ofNat 8 m) (p.2 + p.1.entry (BitVec.ofNat 8 m) + effectiveKey K len (BitVec.ofNat 8 m))
    rwa [hj', hm'] at this

/-- The key schedule beside the source's (R120), for a key with the same effective bytes. -/
theorem keySchedule_agrees {K : Table} {len : BitVec 9} {key : List Nat} (hk : key ≠ [])
    (h : ∀ n : Byte, (effectiveKey K len n).toNat = key.getD (n.toNat % key.length) 0) :
    ∃ P, Source.keySchedule key = .ok P ∧ (keySchedule K len).Agrees P := by
  refine ⟨_, by rw [Source.keySchedule, if_neg hk], ?_⟩
  have := (ksaRounds_agree h 256 (le_refl _)).1
  unfold keySchedule
  exact this

/-- The table of a state, as a function of numbers. -/
def Table.toFun (T : Table) : Nat → Nat := fun n => (T.entry (BitVec.ofNat 8 n)).toNat

theorem Table.agrees_toFun (T : Table) : T.Agrees T.toFun := fun n => by simp [Table.toFun]

/-- One PRGA step beside one step of the source's generator (R140). -/
theorem keystreamFrom_succ {s : State} {P : Nat → Nat} (h : s.S.Agrees P) (n : Nat) :
    ∃ P', (prgaStep s).1.S.Agrees P' ∧
      Source.keystreamFrom P s.I.toNat s.J.toNat (n + 1) =
        (prgaStep s).2.toNat :: Source.keystreamFrom P' (prgaStep s).1.I.toNat (prgaStep s).1.J.toNat n := by
  have hI : (s.I.toNat + 1) % 256 = (s.I + 1).toNat := by simp
  have hJ : (s.J.toNat + P (s.I + 1).toNat) % 256 = (s.J + s.S.entry (s.I + 1)).toNat := by
    rw [BitVec.toNat_add s.J, h]
  have hS := h.swap (s.I + 1) (s.J + s.S.entry (s.I + 1))
  refine ⟨_, hS, ?_⟩
  simp only [Source.keystreamFrom, hI, hJ, ← hS _, prgaStep]
  congr 1
  have := hS ((s.S.swap (s.I + 1) (s.J + s.S.entry (s.I + 1))).entry (s.I + 1) +
    (s.S.swap (s.I + 1) (s.J + s.S.entry (s.I + 1))).entry (s.J + s.S.entry (s.I + 1)))
  rw [this]
  congr 1

end Sys2Proof.Machine
end

