-- ==== Sys2Proof/Tests/Slice0.lean ====
section
/-! SUPPORT. Tests of one step each, their expected values from spec/95_test_vectors.md and the rules named; the refusals of
`WellFormed`; and a witness for the hypotheses of each statement. -/

open Sys2Proof Sys2Proof.Machine

namespace Sys2Proof.Tests

/-! ### Decoding: words written out from the encodings of 30_encoding.md R80 and R84 (V20 to V34) -/

theorem test_decode_nop : decode 0b00000000000000000000000000000000#32 = .ok .nop := by decide

theorem test_decode_reset : decode 0b00000000000000000000000000000001#32 = .ok .reset := by decide

theorem test_decode_clrerr : decode 0b00000000000000000000000000000010#32 = .ok .clrerr := by decide

theorem test_decode_clrkey : decode 0b00000000000000000000000000000011#32 = .ok .clrkey := by decide

theorem test_decode_keyb : decode 0b00000000000000001010101100000100#32 = .ok (.keyb 0xAB) := by decide

theorem test_decode_ksa : decode 0b00000000000000000000000000010000#32 = .ok .ksa := by decide

theorem test_decode_ks : decode 0b00000000000000000000000000100000#32 = .ok .ks := by decide

theorem test_decode_xor : decode 0b00000000000000001111111100100001#32 = .ok (.xor 0xFF) := by decide

/-- V21, V26, V28, V31 to V34. -/
theorem test_decode_illegal :
    decode 0x00000100 = .error .operandNotZero ∧ decode 0x00010004 = .error .reservedBits ∧
    decode 0x00000110 = .error .operandNotZero ∧ decode 0x00FF0021 = .error .reservedBits ∧
    (∀ op ∈ ([0x05, 0x0F, 0x11, 0x22, 0xFF] : List Byte), decode (enc op 0) = .error .reservedOpcode) ∧
    decode 0xFFFFFFFF = .error .reservedBits ∧ decode 0x80000010 = .error .reservedBits := by decide

/-- P1's encodings, from the other side. -/
theorem test_encode_words :
    encode .clrkey = 0x00000003 ∧ encode (.keyb 0x65) = 0x00006504 ∧ encode .ksa = 0x00000010 ∧
    encode (.xor 0x6C) = 0x00006C21 ∧ encode .ks = 0x00000020 := by decide

/-- Lane 0 carries bits [7:0] (R57): KEYB 0x4B as bytes, with one byte left. -/
theorem test_decodeBytes_lanes : decodeBytes [0x04, 0x4B, 0x00, 0x00, 0x99] = .ok (.keyb 0x4B, [0x99]) := by decide

theorem test_decodeBytes_short : decodeBytes [0x04, 0x4B, 0x00] = .error .shortWord := by decide

/-! ### WellFormed refuses each ill-formed term (R86, R89) -/

theorem test_legal_accepts :
    CommandFields.legal { op := 0x04, data := 0xAB, rsv := 0 } = true ∧
    CommandFields.legal { op := 0x10, data := 0, rsv := 0 } = true := by decide

theorem test_legal_refuses_reserved_bit : CommandFields.legal { op := 0x04, data := 0, rsv := 1 } = false := by decide

theorem test_legal_refuses_reserved_opcode : CommandFields.legal { op := 0x05, data := 0, rsv := 0 } = false := by decide

theorem test_legal_refuses_data : CommandFields.legal { op := 0x10, data := 1, rsv := 0 } = false := by decide

theorem test_line_refuses_missing_operand : AsmLine.wellFormed ⟨.KEYB, none⟩ = false := by decide

theorem test_line_refuses_extra_operand : AsmLine.wellFormed ⟨.NOP, some (.dec 0)⟩ = false := by decide

theorem test_line_refuses_large_number :
    AsmLine.wellFormed ⟨.XOR, some (.dec 256)⟩ = false ∧ AsmLine.wellFormed ⟨.XOR, some (.hex 255)⟩ = true := by decide

theorem test_line_refuses_non_ascii : AsmLine.wellFormed ⟨.KEYB, some (.quoted (Char.ofNat 128))⟩ = false := by decide

/-- R89's example `KEYB 'K'`, and P1's `XOR 0x50`. -/
theorem test_assembleText_operands :
    (assembleText (['K', 'E', 'Y', 'B', ' '] ++ [quoteChar, 'K', quoteChar])).map encode = some 0x00004B04 ∧
    (assembleText ['X', 'O', 'R', ' ', '0', 'x', '5', '0']).map encode = some 0x00005021 ∧
    (assembleText ['X', 'O', 'R', ' ', '2', '5', '5']).map encode = some 0x0000FF21 := by decide

theorem test_assembleText_refuses :
    assembleText ['X', 'O', 'R', ' ', '2', '5', '6'] = none ∧ assembleText ['K', 'E', 'Y', 'B'] = none ∧
    assembleText ['N', 'O', 'P', ' ', '0'] = none ∧ assembleText ['K', 'S', 'B'] = none := by decide

/-- The six lines without an operand, each from its own text (R84, R89). -/
theorem test_assembleText_mnemonics :
    ([.NOP, .RESET, .CLRERR, .CLRKEY, .KSA, .KS] : List Mnemonic).map
      (fun m => (assembleText (mnemonicLetters m)).map encode) =
        [some 0x00000000, some 0x00000001, some 0x00000002, some 0x00000003, some 0x00000010, some 0x00000020] := by
  decide

/-- The model's choice of log 12, not the spec's: spaces after a mnemonic are ignored, before it or after an operand not. -/
theorem test_assembleText_spaces :
    assembleText ['N', 'O', 'P', ' '] = some .nop ∧ assembleText [' ', 'N', 'O', 'P'] = none ∧
    assembleText ['X', 'O', 'R', ' ', '5', ' '] = none := by decide

/-! ### Small states -/

/-- The entries of `S` that V11's hand check of its first step uses, in an `S` that is the identity elsewhere. -/
def handCheckS : Table := ((Table.identity.put 0x01 0x33).put 0x33 0x4E).put 0x81 0xEB

/-- A state in `READY` at the start of a stream, three key bytes "Key" loaded (R120). -/
def keyed : State :=
  { State.reset with
    S := handCheckS
    K := ((Table.identity.put 0 0x4B).put 1 0x65).put 2 0x79
    KEYLEN := 3
    PHASE := .READY }

/-- The reset state with the next input. -/
def resetThen (x : Input) : State := { State.reset with pending := [x] }

/-- What a look at the next state gives. -/
def after {α : Type} (o : Host.Outcome State Fault Refusal) (look : State → α) : Option α :=
  match o with
  | .next t => some (look t)
  | .fault _ => none
  | .refused _ => none

/-- Whether a read gave `v` without an error and left `STATUS` at `st`. -/
def answered (v : Word) (err : Bool) (st : Word) (o : Host.Outcome State Fault Refusal) : Bool :=
  after o (fun t => (t.responses, statusWord t)) = some ([{ rdata := v, err := err }], st)

/-! ### Commands -/

/-- V50: NOP after a failed KSA from reset reads 0x00000100. -/
theorem test_nop_keeps_flags :
    after (exec .nop (raiseError .INVALID_KEY State.reset)) statusWord = some 0x00000100 := by decide

/-- V52, V22: RESET clears what a stream left; `SWIN[7]` reads 7. -/
theorem test_reset_command :
    after (exec .reset { keyed with I := 9, J := 0xDE, DOUT := 0xD3, COUNT := 9 })
      (fun t => (statusWord t, t.KEYLEN, (Register.SWIN 7).value t, indexWord t, t.COUNT, t.DOUT)) =
        some (0x00000000, 0, 0x00000007, 0x00000000, 0, 0) := by decide +kernel

/-- RESET keeps the bytes of `K` (R171, R48). -/
theorem test_reset_command_keeps_key : after (exec .reset keyed) (fun t => t.K.entry 0) = some 0x4B := by
  decide +kernel

/-- V51: CLRERR from 0x00000E01. -/
theorem test_clrerr :
    after (exec .clrerr { keyed with E_BUS := true, E_ILLCMD := true, E_NOTKEYED := true }) statusWord
      = some 0x00000001 := by decide

/-- V37, V24. -/
theorem test_clrkey : after (exec .clrkey keyed) (fun t => (t.KEYLEN, statusWord t)) = some (0, 0x00000001) := by
  decide

/-- V25, from one key byte. -/
theorem test_keyb :
    after (exec (.keyb 0xAB) { keyed with KEYLEN := 1 }) (fun t => (t.KEYLEN, t.K.entry 1, t.K.entry 0))
      = some (2, 0xAB, 0x4B) := by decide +kernel

/-- V36's 257th byte: discarded, no error; and its 256th, the last that is stored. -/
theorem test_keyb_full :
    after (exec (.keyb 0x77) { keyed with KEYLEN := 256 }) (fun t => (t.KEYLEN, t.K.entry 0, statusWord t))
      = some (256, 0x4B, 0x00000001) ∧
    after (exec (.keyb 0x77) { keyed with KEYLEN := 255 }) (fun t => (t.KEYLEN, t.K.entry 255)) = some (256, 0x77) := by
  decide +kernel

/-- V10: `S[0..7]` and `S[248..255]` after the KSA with the key "Key". -/
theorem test_ksa_schedule :
    ([0, 1, 2, 3, 4, 5, 6, 7, 248, 249, 250, 251, 252, 253, 254, 255] : List Byte).map (keySchedule keyed.K 3).entry =
      [0x4B, 0x33, 0x84, 0x9D, 0xC0, 0xC8, 0x1D, 0xA8, 0xF9, 0xDD, 0x34, 0x7C, 0x0A, 0xD3, 0x3D, 0x93] := by
  decide +kernel

/-- V40: a failed KSA while keyed leaves the stream where it was. -/
theorem test_ksa_failed :
    after (exec .ksa { keyed with KEYLEN := 0, I := 2, J := 0xB7, DOUT := 0xF3, COUNT := 2 })
      (fun t => (statusWord t, indexWord t, t.COUNT, t.DOUT, t.S.entry 1))
      = some (0x00000110, 0x0000B702, 2, 0xF3, 0x33) := by decide +kernel

/-- V11's first step, checked by hand there: `S[1]`, `S[0x33]`, the byte, `INDEX`, the count. -/
theorem test_ks :
    after (exec .ks keyed) (fun t => (t.S.entry 0x01, t.S.entry 0x33, t.DOUT, indexWord t, t.COUNT))
      = some (0x4E, 0x33, 0xEB, 0x00003301, 1) := by decide +kernel

/-- V43: KS from reset. V45: the count wraps. -/
theorem test_ks_corners :
    after (exec .ks State.reset) (fun t => (statusWord t, t.DOUT, indexWord t, t.COUNT)) = some (0x00000220, 0, 0, 0) ∧
    after (exec .ks { keyed with COUNT := 0xFFFFFFFF }) (fun t => (t.COUNT, statusWord t)) = some (0, 0x00000001) := by
  decide +kernel

/-- V1's first byte (XOR 0x50 gives 0xBB), V42's corners. -/
theorem test_xor :
    after (exec (.xor 0x50) keyed) State.DOUT = some 0xBB ∧ after (exec (.xor 0x00) keyed) State.DOUT = some 0xEB ∧
    after (exec (.xor 0xFF) keyed) State.DOUT = some 0x14 ∧ after (exec (.xor 0xEB) keyed) State.DOUT = some 0x00 := by
  decide +kernel

/-- V43: XOR from reset. -/
theorem test_xor_unkeyed : after (exec (.xor 0x41) State.reset) statusWord = some 0x00000220 := by decide

/-! ### The bus -/

/-- V21, V26, V33: an illegal word, acknowledged without a bus error. -/
theorem test_illegal_word :
    answered 0 false 0x00000431 (serve (writeCmd 0x00000100) keyed) = true ∧
    answered 0 false 0x00000431 (serve (writeCmd 0x00010004) keyed) = true ∧
    answered 0 false 0x00000431 (serve (writeCmd 0xFFFFFFFF) keyed) = true := by decide

/-- V60, V61. -/
theorem test_reads :
    answered 0x52433401 false 0x00000000 (serve (.read 0x018 .word) State.reset) = true ∧
    answered 0x000000FF false 0x00000000 (serve (.read 0x7FC .word) State.reset) = true := by decide +kernel

/-- V62 to V69. -/
theorem test_refused :
    answered 0 true 0x00000800 (serve (.read 0x000 .word) State.reset) = true ∧
    answered 0 true 0x00000800 (serve (.write 0x004 .word 0) State.reset) = true ∧
    answered 0 true 0x00000800 (serve (.read 0x01C .word) State.reset) = true ∧
    answered 0 true 0x00000800 (serve (.read 0x800 .word) State.reset) = true ∧
    answered 0 true 0x00000800 (serve (.read 0x006 .word) State.reset) = true ∧
    answered 0 true 0x00000800 (serve (.read 0x004 .byte) State.reset) = true ∧
    answered 0 true 0x00000800 (serve (.write 0x000 .halfword 0x0010) State.reset) = true ∧
    answered 0 true 0x00000800 (serve (.write 0xFFC .word 0) State.reset) = true := by decide

/-- The rows of spec/opcode_table.json, each by its `match` value, through the decoder as the host asks it. -/
theorem test_decodeTableWord :
    [0x00, 0x01, 0x02, 0x03, 0x04, 0x10, 0x20, 0x21].map (decodeTableWord 32) =
      [some .nop, some .reset, some .clrerr, some .clrkey, some (.keyb 0), some .ksa, some .ks, some (.xor 0)] := by
  decide

/-- `withFetchWord` places the word, and the very next step runs it: KEYB 0x4B from reset. -/
theorem test_withFetchWord :
    after (step (State.reset.withFetchWord 32 0x4B04)) (fun t => (t.KEYLEN, t.K.entry 0, t.LASTRES, t.pending))
      = some (1, 0x4B, 0, []) := by
  decide +kernel

/-! ### Witnesses: concrete states and operands that meet the hypotheses of each statement -/

/-- One illegal word of each kind, at the edges: the lowest and the highest reserved bit, the opcodes beside legal ones,
data 1 and 255. -/
theorem witness_IllegalWordsExactly :
    decode 0x00010000 = .error .reservedBits ∧ decode 0x80000021 = .error .reservedBits ∧
    decode 0x0000000F = .error .reservedOpcode ∧ decode 0x0000001F = .error .reservedOpcode ∧
    decode 0x00000103 = .error .operandNotZero ∧ decode 0x0000FF20 = .error .operandNotZero := by decide

theorem witness_AssemblerEncodesLines :
    AsmOperand.wellFormed (.hex 255) = true ∧ AsmOperand.wellFormed (.dec 0) = true ∧
    AsmOperand.wellFormed (.quoted 'K') = true := by decide

/-- Words with a command's opcode that are not its word, for each command (NOP, RESET, CLRERR, CLRKEY, KEYB, KSA, KS,
XOR). -/
theorem witness_illegal_words_of_commands :
    ((0x00000100 : Word).extractLsb' 0 8 = 0x00 ∧ (0x00000100 : Word) ≠ 0x00000000) ∧
    ((0x00000101 : Word).extractLsb' 0 8 = 0x01 ∧ (0x00000101 : Word) ≠ 0x00000001) ∧
    ((0x80000002 : Word).extractLsb' 0 8 = 0x02 ∧ (0x80000002 : Word) ≠ 0x00000002) ∧
    ((0x0000FF03 : Word).extractLsb' 0 8 = 0x03 ∧ (0x0000FF03 : Word) ≠ 0x00000003) ∧
    ((0x00010004 : Word).extractLsb' 0 8 = 0x04 ∧ (0x00010004 : Word).extractLsb' 16 16 ≠ 0) ∧
    ((0x00000110 : Word).extractLsb' 0 8 = 0x10 ∧ (0x00000110 : Word) ≠ 0x00000010) ∧
    ((0x00000120 : Word).extractLsb' 0 8 = 0x20 ∧ (0x00000120 : Word) ≠ 0x00000020) ∧
    ((0x00FF0021 : Word).extractLsb' 0 8 = 0x21 ∧ (0x00FF0021 : Word).extractLsb' 16 16 ≠ 0) := by decide

theorem witness_ClrkeyEmptiesKey : exec .clrkey keyed = .next { keyed with KEYLEN := 0, LASTRES := 0 } := rfl

/-- Both sides of the full buffer. -/
theorem witness_KeybAppendsByte :
    ({ keyed with KEYLEN := 255 } : State).KEYLEN.toNat < 256 ∧ 256 ≤ ({ keyed with KEYLEN := 256 } : State).KEYLEN.toNat :=
  by decide

/-- The shortest key, the longest, and none; also for `KsaLeavesPermutation`. -/
theorem witness_KsaSchedulesLoadedKey :
    ({ keyed with KEYLEN := 1 } : State).KEYLEN ≠ 0 ∧ ({ keyed with KEYLEN := 256 } : State).KEYLEN ≠ 0 ∧
    State.reset.KEYLEN = 0 := by decide

theorem witness_KsaEmptyKeyRaisesInvalidKey :
    State.reset.KEYLEN = 0 ∧
    exec .ksa State.reset = .next { State.reset with LASTRES := 1, E_INVKEY := true } := ⟨rfl, rfl⟩

/-- KS and XOR in `UNKEYED`, and the phase of the other statements about them. -/
theorem witness_UnkeyedStreamRaisesNotKeyed :
    State.reset.PHASE = .UNKEYED ∧
    exec (.xor 0x41) State.reset = .next { State.reset with LASTRES := 2, E_NOTKEYED := true } :=
  ⟨rfl, rfl⟩

/-- For `KsGivesKeystreamByte`, `XorGivesCombinedByte` and `KeystreamIsUnbounded`. -/
theorem witness_KsGivesKeystreamByte : keyed.PHASE = .READY ∧ State.reset.PHASE = .UNKEYED := by decide

theorem witness_XorIsSelfInverse : keyed.PHASE = .READY ∧ (after (exec (.xor 0x50) keyed) State.DOUT).isSome = true := by
  decide +kernel

/-- Refused accesses on each side of a range: `CMD` read, 0x01C, 0x3FC, 0x800, a misaligned and a narrow access; and the
accepted ones beside them. -/
theorem witness_AccessesAcceptedExactly :
    (∀ off ∈ ([0x000, 0x01C, 0x3FC, 0x401, 0x7FD, 0x800, 0xFFC] : List Offset), (Access.read off .word).accepted = false) ∧
    (∀ off ∈ ([0x004, 0x018, 0x400, 0x7FC] : List Offset),
      (Access.read off .word).accepted = true ∧ (Access.read off .byte).accepted = false) ∧
    (Access.write 0x000 .word 0).accepted = true ∧ (Access.write 0x000 .reserved 0).accepted = false := by decide

theorem witness_RegisterReadsGiveValues :
    (0x004 : Offset) ≠ 0x000 ∧ BitVec.ofNat 12 (0x400 + 4 * (0 : Byte).toNat) = 0x400 ∧
    BitVec.ofNat 12 (0x400 + 4 * (255 : Byte).toNat) = 0x7FC := by decide

theorem witness_ReadsHaveNoSideEffects :
    (Access.read 0x004 .word).accepted = true ∧ (Access.read 0x7FC .word).accepted = true ∧
    readTarget 0x004 .word = some .STATUS ∧ readTarget 0x7FC .word = some (.SWIN 255) ∧
    readTarget 0x000 .word = none ∧ readTarget 0x800 .word = none ∧
    (∀ a ∈ [Access.read 0x018 .word, Access.read 0x400 .word],
      ∃ off size, a = .read off size ∧ a.accepted = true) := by
  refine ⟨by decide, by decide, by decide, by decide, by decide, by decide, ?_⟩
  simp only [List.mem_cons, List.not_mem_nil, or_false, forall_eq_or_imp, forall_eq]
  exact ⟨⟨_, _, rfl, by decide⟩, ⟨_, _, rfl, by decide⟩⟩

theorem witness_CmdIsWriteOnly :
    decode 0x00000003 = .ok .clrkey ∧ exec .clrkey keyed = .next { keyed with KEYLEN := 0, LASTRES := 0 } :=
  ⟨by decide, rfl⟩

/-- The first and the last address of the window, and the three sizes the bus refuses. -/
theorem witness_WindowDecodesLowAddressBits :
    inWindow Config.rc4Base = true ∧ inWindow (Config.rc4Base + 4095) = true ∧
    (0 : BitVec 2) ≠ 2 ∧ (1 : BitVec 2) ≠ 2 ∧ (3 : BitVec 2) ≠ 2 := by simp [inWindow]

theorem witness_StepExecutesWrittenCommand :
    (resetThen (.access (.write 0x000 .word 0x00004B04))).pending = .access (.write 0x000 .word 0x00004B04) :: [] ∧
    decode 0x00004B04 = .ok (.keyb 0x4B) := by decide

theorem witness_IdleEngineHoldsState : State.reset.pending = [] := rfl

theorem witness_RunServesAccessesInOrder :
    ({ State.reset with pending := [.access (writeCmd 0x3), .access (.read 0x004 .word), .reset] } : State).pending =
      [writeCmd 0x3, Access.read 0x004 .word].map Input.access ++ [Input.reset] := by decide

/-- The three kinds of input, each answered; for every statement about a step on a pending input. -/
theorem witness_OneResponsePerAccess :
    ((resetThen (.access (.read 0x000 .word))).pending = .access (.read 0x000 .word) :: [] ∧
      after (step (resetThen (.access (.read 0x000 .word)))) (fun t => t.responses.length) = some 1) ∧
    (Input.isReset .reset = true ∧
      after (step (resetThen .reset)) (fun t => t.responses.length) = some 0) ∧
    (Input.isReset (.resetDuring (.read 0x004 .word)) = true) := by decide

theorem witness_ResetStateValues : (resetThen .reset).pending = .reset :: [] := rfl

theorem witness_ResetAbandonsAccessInFlight :
    (resetThen (.resetDuring (writeCmd 0x00000010))).pending = .resetDuring (writeCmd 0x00000010) :: [] := rfl

theorem isPermutation_identity : Table.identity.IsPermutation :=
  ⟨fun a b h => by simpa using h, fun v => ⟨v, by simp⟩⟩

/-- A sound state in `READY`, and a step of it that runs a command; also for `PrgaKeepsPermutation`. -/
theorem witness_StepKeepsSound :
    State.Sound { resetThen (.access (writeCmd 0x00000020)) with PHASE := .READY, KEYLEN := 256 } ∧
    after (step { resetThen (.access (writeCmd 0x00000020)) with PHASE := .READY, KEYLEN := 256 }) State.COUNT = some 1 :=
  ⟨⟨isPermutation_identity, by decide, by decide, by decide⟩, by decide +kernel⟩

/-- A loaded key, and a step that adds a byte to it. -/
theorem witness_StepKeepsLoadedKey :
    State.HoldsKey { resetThen (.access (writeCmd 0x00006504)) with K := Table.identity, KEYLEN := 2 } [0x00, 0x01] ∧
    after (step { resetThen (.access (writeCmd 0x00006504)) with K := Table.identity, KEYLEN := 2 }) State.KEYLEN = some 3 ∧
    keyHistory [0x00, 0x01] (.access (writeCmd 0x00006504)) = [0x00, 0x01, 0x65] := by
  refine ⟨⟨rfl, ?_⟩, by decide +kernel, by decide⟩
  decide +kernel

theorem witness_StepKeepsIndexWithCount :
    ({ keyed with I := 0xFF, COUNT := 0x1FF } : State).I = (0x1FF : Word).setWidth 8 ∧
    after (step { keyed with I := 0xFF, COUNT := 0x1FF, pending := [.access (writeCmd 0x00000020)] })
      (fun t => (t.I, t.COUNT)) = some (0, 0x200) := by decide +kernel

/-- Two states that differ in `K[3]` only, with three key bytes loaded. -/
theorem witness_UnreadKeyIsNeverObserved :
    State.SameButUnreadKey { keyed with pending := [.access (writeCmd 0x00000010)] }
      { keyed with K := keyed.K.put 3 0xEE, pending := [.access (writeCmd 0x00000010)] } ∧
    keyed.K ≠ keyed.K.put 3 0xEE := by
  refine ⟨⟨rfl, ?_⟩, by decide +kernel⟩
  decide +kernel

/-- An input that clears no flag and one that does, and a refused access that sets `E_BUS`. -/
theorem witness_StickyFlagsAccumulate :
    Input.clearsFlags (.access (.read 0x000 .word)) = false ∧ Input.clearsFlags (.access (writeCmd 0x00000002)) = true ∧
    Input.clearsFlags .reset = true ∧ State.reset.E_BUS = false ∧
    after (step (resetThen (.access (.read 0x000 .word)))) State.E_BUS = some true := by decide

theorem witness_CleanFlagsMeanCleanBatch :
    (∀ a ∈ [writeCmd 0x00004B04, Access.read 0x00C .word], (Input.access a).clearsFlags = false) ∧
    after (serveAll [writeCmd 0x00004B04, Access.read 0x00C .word] State.reset) State.anyFlag = some false := by
  decide +kernel

/-- For `OneErrorAtMost` and `LastresWrittenByCommandsAndReset`: a command's access, one that is none, nothing pending, and
the reset input. -/
theorem witness_LastresWrittenByCommandsAndReset :
    after (serve (.write 0x000 .word 0x00000005) State.reset) State.LASTRES = some 3 ∧
    after (serve (.read 0x004 .word) { State.reset with LASTRES := 2 }) State.LASTRES = some 2 ∧
    (∀ w, Access.read 0x004 .word ≠ .write 0x000 .word w) ∧
    (State.reset.pending = [] ∧ after (step { State.reset with LASTRES := 2 }) State.LASTRES = some 2) ∧
    (Input.isReset .reset = true ∧ after (step { resetThen .reset with LASTRES := 2 }) State.LASTRES = some 0) := by
  refine ⟨by decide, by decide, ?_, by decide, by decide⟩
  simp

/-- Both phases, each with an input that leaves it. -/
theorem witness_PhaseChangesExactly :
    (State.reset.PHASE = .UNKEYED ∧
      after (step { resetThen (.access (writeCmd 0x00000010)) with KEYLEN := 1 }) State.PHASE = some .READY) ∧
    (keyed.PHASE = .READY ∧
      after (step { keyed with KEYLEN := 0, pending := [.access (writeCmd 0x00000010)] }) State.PHASE = some .UNKEYED) :=
  ⟨⟨rfl, rfl⟩, ⟨rfl, rfl⟩⟩

/-- For `CommandsWriteOnlyTheirState`, each clause: commands that are none of those it leaves out. -/
theorem witness_CommandsWriteOnlyTheirState :
    Instr.keyb 7 ∉ [Instr.reset, .ksa, .ks] ∧ (∀ d, Instr.keyb 7 ≠ .xor d) ∧ (∀ b, Instr.ksa ≠ .keyb b) ∧
    Instr.xor 7 ∉ [Instr.reset, .clrkey] ∧ (∀ b, Instr.xor 7 ≠ .keyb b) ∧ Instr.ks ∉ [Instr.reset, .ksa] ∧
    Instr.ksa ∉ [Instr.reset, .clrerr] ∧ (after (exec .ks keyed) State.COUNT) = some 1 := by
  refine ⟨by decide, ?_, ?_, by decide, ?_, by decide, by decide, by decide +kernel⟩ <;> simp

theorem witness_PrgaKeepsPermutation :
    Table.identity.IsPermutation ∧
    after (exec .ks { keyed with S := Table.identity }) State.COUNT = some 1 :=
  ⟨isPermutation_identity, by decide +kernel⟩

/-- Equal below `KEYLEN`, different at `KEYLEN`. -/
theorem witness_KsaDependsOnKeyAlone :
    keyed.KEYLEN ≠ 0 ∧ ∀ n : Byte, n.toNat < keyed.KEYLEN.toNat → (keyed.K.put 3 0xEE).entry n = keyed.K.entry n := by
  decide +kernel

/-- A failing KSA and a successful one, each with its next state. -/
theorem witness_KsaCanBeIssuedAgain :
    exec .ksa State.reset = .next (raiseError .INVALID_KEY State.reset) ∧
    exec .ksa keyed = .next (complete (startStream keyed)) := ⟨rfl, rfl⟩

/-- A key longer than the buffer, and the shortest one. -/
theorem witness_KeysOfAnyLengthScheduleAsSource :
    List.replicate 257 (0x5A : Byte) ≠ [] ∧ ([0x00] : List Byte) ≠ [] := ⟨List.cons_ne_nil _ _, List.cons_ne_nil _ _⟩

/-- V14: "A" and "AA". -/
theorem witness_PeriodicKeysScheduleAlike :
    ∀ n < 256, ([0x41] : List Byte)[n % 1]? = ([0x41, 0x41] : List Byte)[n % 2]? := by decide +kernel

theorem witness_KeyLoadingLeavesStreamAlone :
    Instr.xor 7 ≠ .ksa ∧ (after (exec (.xor 7) keyed) State.COUNT) = some 1 ∧
    (after (exec (.keyb 7) keyed) State.KEYLEN) = some 4 := by decide +kernel

/-- A mix of accesses without KSA and RESET, from the start of a stream. -/
theorem witness_StreamPositionFollowsSource :
    keyed.PHASE = .READY ∧ keyed.I = 0 ∧ keyed.J = 0 ∧ keyed.COUNT = 0 ∧
    (∀ a ∈ [wr .ks, rd .DOUT, wr .clrkey, wr (.xor 7), Access.read 0x000 .byte],
      (Input.access a).command? ≠ some .ksa ∧ (Input.access a).command? ≠ some .reset) ∧
    [wr .ks, rd .DOUT, wr .clrkey, wr (.xor 7), Access.read 0x000 .byte].countP Access.takesByte = 2 := by decide +kernel

/-- For `TransformRoundTrip`, `TransformKeepsLength` and `TransformComputesSourceTransform`: a key, a transform that
succeeds, and one with the empty key. -/
theorem witness_TransformKeepsLength :
    ([0x4B] : List Byte) ≠ [] ∧ (∃ t, transform [0x4B] [] State.reset = .next (t, .ok [])) ∧
    ∃ t, transform [] [0x50] State.reset = .next (t, .error .emptyKey) :=
  ⟨List.cons_ne_nil _ _, ⟨_, rfl⟩, ⟨_, rfl⟩⟩

end Sys2Proof.Tests
end

section
/-! A word write of `CMD` as one step: the access is taken off the list, and its word is executed and acknowledged. -/

namespace Sys2Proof.Machine

/-- A legal word executes the command it decodes to (R85). -/
theorem executeWord_of_decode {w : Word} {i : Instr} (h : decode w = .ok i) (s : State) :
    executeWord w s = exec i s := by
  simp [executeWord, h]

/-- A step on a pending word write of `CMD`, for legal and illegal words alike (R14, R55). -/
theorem step_of_writeCmd {s : State} {rest : List Input} {w : Word} (h : s.pending = .access (writeCmd w) :: rest) :
    step s = acknowledge (executeWord w { s with pending := rest }) :=
  (step_of_pending h).trans (serve_writeCmd w _)

/-- Settles O25: the step serves the write, which acknowledges the execution of the word, which is that of its command. -/
theorem stepExecutesWrittenCommand : Obligations.StepExecutesWrittenCommand := by
  intro s rest w i hpending hdecode
  calc step s
    _ = acknowledge (executeWord w { s with pending := rest }) := step_of_writeCmd hpending
    _ = acknowledge (exec i { s with pending := rest }) := congrArg acknowledge (executeWord_of_decode hdecode _)
    _ = _ := rfl

end Sys2Proof.Machine
end

section
/-! The equations of the commands with a check before any write (R120, R124, R141, R142), and of an accepted write. -/

namespace Sys2Proof.Machine

theorem exec_ksa_of_empty {s : State} (h : s.KEYLEN = 0) : exec .ksa s = .next (raiseError .INVALID_KEY s) := by
  simp only [exec, execKsa, if_pos h]

theorem exec_ksa_of_key {s : State} (h : s.KEYLEN ≠ 0) : exec .ksa s = .next (complete (startStream s)) := by
  simp only [exec, execKsa, if_neg h]

theorem exec_ks_of_unkeyed {s : State} (h : s.PHASE = .UNKEYED) :
    exec .ks s = .next (raiseError .NOT_KEYED s) := by
  simp only [exec, execKs, h]

theorem exec_ks_of_ready {s : State} (h : s.PHASE = .READY) :
    exec .ks s = .next (complete (emitByte (fun k => k) s)) := by
  simp only [exec, execKs, h]

theorem exec_xor_of_unkeyed {s : State} (d : Byte) (h : s.PHASE = .UNKEYED) :
    exec (.xor d) s = .next (raiseError .NOT_KEYED s) := by
  simp only [exec, execXor, h]

theorem exec_xor_of_ready {s : State} (d : Byte) (h : s.PHASE = .READY) :
    exec (.xor d) s = .next (complete (emitByte (fun k => d ^^^ k) s)) := by
  simp only [exec, execXor, h]

/-- A word the decoder reads no command from raises `ILLEGAL_CMD` (R86), as the shared operation. -/
theorem executeWord_of_error {w : Word} {e : Illegal} (h : decode w = .error e) (s : State) :
    executeWord w s = .next (raiseError .ILLEGAL_CMD s) := by
  simp only [executeWord, h]

/-- Only a word write of `CMD` is accepted (R52, R53). -/
theorem writeAccepted_iff {off : Offset} {size : AccessSize} :
    writeAccepted off size = true ↔ off = cmdOffset ∧ size = .word := by
  simp only [writeAccepted, wordAligned, Bool.and_eq_true, decide_eq_true_eq]
  constructor
  · rintro ⟨⟨hsize, -⟩, hoff⟩
    exact ⟨hoff, hsize⟩
  · rintro ⟨rfl, rfl⟩
    exact ⟨⟨rfl, rfl⟩, rfl⟩

/-- An accepted write is the write of its word to `CMD`. -/
theorem write_eq_writeCmd {off : Offset} {size : AccessSize} (h : writeAccepted off size = true) (w : Word) :
    Access.write off size w = writeCmd w := by
  obtain ⟨rfl, rfl⟩ := writeAccepted_iff.1 h
  rfl

end Sys2Proof.Machine
end

section
/-! The frame of every command (R48): each field after a command, from the field before it. -/

namespace Sys2Proof.Machine

section
variable {i : Instr} {s t : State}

theorem exec_stream (h : exec i s = .next t) (hi : i ∉ [Instr.reset, .ksa, .ks]) (hxor : ∀ d, i ≠ .xor d) :
    t.S = s.S ∧ t.I = s.I ∧ t.J = s.J ∧ t.DOUT = s.DOUT ∧ t.COUNT = s.COUNT := by
  rcases exec_cases h with ⟨rfl, rfl⟩ | ⟨rfl, rfl⟩ | ⟨rfl, rfl⟩ | ⟨rfl, rfl⟩ | ⟨b, rfl, rfl⟩ | ⟨rfl, -, rfl⟩ |
    ⟨rfl, -, rfl⟩ | ⟨rfl | ⟨d, rfl⟩, -, rfl⟩ | ⟨rfl, -, rfl⟩ | ⟨d, rfl, -, rfl⟩ <;> simp at hi hxor ⊢

theorem exec_K (h : exec i s = .next t) (hkeyb : ∀ b, i ≠ .keyb b) : t.K = s.K := by
  rcases exec_cases h with ⟨rfl, rfl⟩ | ⟨rfl, rfl⟩ | ⟨rfl, rfl⟩ | ⟨rfl, rfl⟩ | ⟨b, rfl, rfl⟩ | ⟨rfl, -, rfl⟩ |
    ⟨rfl, -, rfl⟩ | ⟨-, -, rfl⟩ | ⟨rfl, -, rfl⟩ | ⟨d, rfl, -, rfl⟩ <;> simp at hkeyb ⊢

theorem exec_KEYLEN (h : exec i s = .next t) (hi : i ∉ [Instr.reset, .clrkey]) (hkeyb : ∀ b, i ≠ .keyb b) :
    t.KEYLEN = s.KEYLEN := by
  rcases exec_cases h with ⟨rfl, rfl⟩ | ⟨rfl, rfl⟩ | ⟨rfl, rfl⟩ | ⟨rfl, rfl⟩ | ⟨b, rfl, rfl⟩ | ⟨rfl, -, rfl⟩ |
    ⟨rfl, -, rfl⟩ | ⟨-, -, rfl⟩ | ⟨rfl, -, rfl⟩ | ⟨d, rfl, -, rfl⟩ <;> simp at hi hkeyb ⊢

/-- `PHASE` after a command (R26): RESET and KSA decide it, by `KEYLEN` for KSA, and no other command touches it. -/
theorem exec_PHASE (h : exec i s = .next t) :
    t.PHASE = if i = .reset then .UNKEYED else if i = .ksa then (if s.KEYLEN = 0 then .UNKEYED else .READY)
      else s.PHASE := by
  rcases exec_cases h with ⟨rfl, rfl⟩ | ⟨rfl, rfl⟩ | ⟨rfl, rfl⟩ | ⟨rfl, rfl⟩ | ⟨b, rfl, rfl⟩ | ⟨rfl, hkey, rfl⟩ |
    ⟨rfl, hkey, rfl⟩ | ⟨rfl | ⟨d, rfl⟩, -, rfl⟩ | ⟨rfl, -, rfl⟩ | ⟨d, rfl, -, rfl⟩ <;> simp_all

/-- The sticky flags after a command (R30): RESET and CLRERR clear all four; else a KSA without a key sets that of
`INVALID_KEY` (R203), a KS or XOR in `UNKEYED` that of `NOT_KEYED` (R204), and no command touches the other two. -/
theorem exec_flags (h : exec i s = .next t) :
    (i ∈ [Instr.reset, .clrerr] → t.anyFlag = false) ∧
    (i ∉ [Instr.reset, .clrerr] →
      t.E_INVKEY = ((i = .ksa ∧ s.KEYLEN = 0 : Bool) || s.E_INVKEY) ∧
      t.E_NOTKEYED = ((usesByte i = true ∧ s.PHASE = .UNKEYED : Bool) || s.E_NOTKEYED) ∧
      t.E_ILLCMD = s.E_ILLCMD ∧ t.E_BUS = s.E_BUS) := by
  rcases exec_cases h with ⟨rfl, rfl⟩ | ⟨rfl, rfl⟩ | ⟨rfl, rfl⟩ | ⟨rfl, rfl⟩ | ⟨b, rfl, rfl⟩ | ⟨rfl, hkey, rfl⟩ |
    ⟨rfl, hkey, rfl⟩ | ⟨rfl | ⟨d, rfl⟩, hphase, rfl⟩ | ⟨rfl, hphase, rfl⟩ | ⟨d, rfl, hphase, rfl⟩ <;>
    simp_all [usesByte, State.anyFlag]

end

/-- KS and XOR alone use a keystream byte. -/
theorem usesByte_eq_false {i : Instr} (hks : i ≠ .ks) (hxor : ∀ d, i ≠ .xor d) : usesByte i = false := by
  cases i with
  | ks => exact absurd rfl hks
  | xor d => exact absurd rfl (hxor d)
  | nop | reset | clrerr | clrkey | keyb _ | ksa => rfl

/-- Settles O43, field by field: each clause is the frame lemma of its fields. -/
theorem commandsWriteOnlyTheirState : Obligations.CommandsWriteOnlyTheirState := by
  intro i s t h
  refine ⟨exec_stream h, exec_K h, exec_KEYLEN h, fun hi => ?_, fun hi => ?_, exec_bus h⟩
  · simp only [List.mem_cons, List.not_mem_nil, or_false, not_or] at hi
    rw [exec_PHASE h, if_neg hi.1, if_neg hi.2]
  · obtain ⟨hinv, hnot, hill, hbus⟩ := (exec_flags h).2 hi
    refine ⟨hill, hbus, fun hksa => ?_, fun hks hxor => ?_⟩
    · simp [hinv, hksa]
    · simp [hnot, usesByte_eq_false hks hxor]

end Sys2Proof.Machine
end

section
/-! The four invariants of the engine's state (R22, R24, R29, R207): each is kept by every command, then by every step. -/

namespace Sys2Proof.Machine

/-- The rounds of the key schedule only swap entries (R120), so they keep a permutation a permutation. -/
theorem foldl_ksaRound_isPermutation (K : Table) (len : BitVec 9) (l : List Byte) {p : Table × Byte}
    (hp : p.1.IsPermutation) : (l.foldl (ksaRound K len) p).1.IsPermutation := by
  induction l generalizing p with
  | nil => exact hp
  | cons i l ih => exact ih (hp.swap i _)

theorem keySchedule_isPermutation (K : Table) (len : BitVec 9) : (keySchedule K len).IsPermutation := by
  unfold keySchedule
  exact foldl_ksaRound_isPermutation K len indices Table.isPermutation_identity

/-- Every command keeps R22: it keeps `S`, or sets the identity, or schedules, or swaps two entries. -/
theorem exec_isPermutation {i : Instr} {s t : State} (h : exec i s = .next t) (hs : s.S.IsPermutation) :
    t.S.IsPermutation := by
  rcases exec_cases h with ⟨-, rfl⟩ | ⟨-, rfl⟩ | ⟨-, rfl⟩ | ⟨-, rfl⟩ | ⟨b, -, rfl⟩ | ⟨-, -, rfl⟩ | ⟨-, -, rfl⟩ |
    ⟨-, -, rfl⟩ | ⟨-, -, rfl⟩ | ⟨d, -, -, rfl⟩
  · exact hs
  · exact Table.isPermutation_identity
  · exact hs
  · exact hs
  · simpa using hs
  · exact hs
  · exact keySchedule_isPermutation s.K s.KEYLEN
  · exact hs
  · exact hs.swap _ _
  · exact hs.swap _ _

/-- KEYB counts no further than 256 (R101, R24). -/
theorem appendKey_keylen_le {b : Byte} {s : State} (hs : s.KEYLEN ≤ 256) : (appendKey b s).KEYLEN ≤ 256 := by
  rw [appendKey_KEYLEN]
  split
  · bv_omega
  · exact hs

/-- Every command keeps R24: it keeps `KEYLEN`, or sets it to 0, or appends a byte. -/
theorem exec_keylen_le {i : Instr} {s t : State} (h : exec i s = .next t) (hs : s.KEYLEN ≤ 256) : t.KEYLEN ≤ 256 := by
  rcases exec_cases h with ⟨-, rfl⟩ | ⟨-, rfl⟩ | ⟨-, rfl⟩ | ⟨-, rfl⟩ | ⟨b, -, rfl⟩ | ⟨-, -, rfl⟩ | ⟨-, -, rfl⟩ |
    ⟨-, -, rfl⟩ | ⟨-, -, rfl⟩ | ⟨d, -, -, rfl⟩
  · exact hs
  · simp
  · exact hs
  · simp
  · exact appendKey_keylen_le hs
  · exact hs
  · exact hs
  · exact hs
  · exact hs
  · exact hs

/-- The codes a command leaves in `LASTRES`: 0, or 1 or 2 with the phase they imply (R29, R207). -/
theorem exec_lastres {i : Instr} {s t : State} (h : exec i s = .next t) :
    t.LASTRES = 0 ∨ (t.LASTRES = 1 ∨ t.LASTRES = 2) ∧ t.PHASE = .UNKEYED := by
  rcases exec_cases h with ⟨-, rfl⟩ | ⟨-, rfl⟩ | ⟨-, rfl⟩ | ⟨-, rfl⟩ | ⟨b, -, rfl⟩ | ⟨-, -, rfl⟩ | ⟨-, -, rfl⟩ |
    ⟨-, hphase, rfl⟩ | ⟨-, -, rfl⟩ | ⟨d, -, -, rfl⟩
  · exact .inl rfl
  · exact .inl rfl
  · exact .inl rfl
  · exact .inl rfl
  · exact .inl rfl
  · exact .inr ⟨.inl rfl, rfl⟩
  · exact .inl rfl
  · exact .inr ⟨.inr rfl, hphase⟩
  · exact .inl rfl
  · exact .inl rfl

theorem exec_sound {i : Instr} {s t : State} (h : exec i s = .next t) (hs : s.Sound) : t.Sound where
  permutation := exec_isPermutation h hs.permutation
  keylen_le := exec_keylen_le h hs.keylen_le
  lastres_le := by rcases exec_lastres h with h0 | ⟨h1 | h2, -⟩ <;> simp [*]
  failed_unkeyed hfailed := by
    rcases exec_lastres h with h0 | ⟨-, hphase⟩
    · simp [h0] at hfailed
    · exact hphase

/-- The invariants speak of `S`, `KEYLEN`, `LASTRES` and `PHASE` alone. -/
theorem State.Sound.congr {s t : State} (hs : s.Sound) (hS : t.S = s.S) (hlen : t.KEYLEN = s.KEYLEN)
    (hres : t.LASTRES = s.LASTRES) (hphase : t.PHASE = s.PHASE) : t.Sound where
  permutation := hS ▸ hs.permutation
  keylen_le := hlen ▸ hs.keylen_le
  lastres_le := hres ▸ hs.lastres_le
  failed_unkeyed := hres ▸ hphase ▸ hs.failed_unkeyed

/-- An illegal word leaves code 3, which says nothing of the phase (R205, R207). -/
theorem State.Sound.raise_illegal {s : State} (hs : s.Sound) : (raiseError .ILLEGAL_CMD s).Sound where
  permutation := hs.permutation
  keylen_le := hs.keylen_le
  lastres_le := BitVec.le_refl _
  failed_unkeyed hfailed := by simp at hfailed

/-- A state with the values that R46 gives these four fields is sound. -/
theorem State.sound_of_reset_values {s : State} (hS : s.S = Table.identity) (hlen : s.KEYLEN = 0)
    (hres : s.LASTRES = 0) (hphase : s.PHASE = .UNKEYED) : s.Sound where
  permutation := hS ▸ Table.isPermutation_identity
  keylen_le := by simp [hlen]
  lastres_le := by simp [hres]
  failed_unkeyed _ := hphase

/-- Settles O33, by the packaged induction step: each kind of effect a step has keeps the invariants. -/
theorem stepKeepsSound : Obligations.StepKeepsSound := fun _ _ hs h =>
  step_keeps (fun _ _ _ => exec_sound) (fun _ hs => hs.raise_illegal)
    (fun _ _ hs => hs.congr rfl rfl rfl rfl) (fun _ hs => hs.congr rfl rfl rfl rfl)
    (fun _ => State.sound_of_reset_values rfl rfl rfl rfl) (fun _ _ hs => hs.congr rfl rfl rfl rfl) hs h

/-- Settles O34: the reset values meet the invariants, and `KEYLEN` 0 is the key of no bytes. -/
theorem resetMeetsInvariants : Obligations.ResetMeetsInvariants :=
  ⟨State.sound_of_reset_values rfl rfl rfl rfl, State.holdsKey_nil rfl, rfl⟩

end Sys2Proof.Machine
end

section
/-! Entries of `K` at `KEYLEN` and above are never observed (R47): two states that differ in them alone are related, and
every operation of a step keeps the relation. -/

namespace Sys2Proof.Machine

namespace State.SameButUnreadKey

variable {s s' : State}

/-- The related state is the first one with another key buffer. -/
theorem eq_update (h : s.SameButUnreadKey s') : s' = { s with K := s'.K } := h.1

/-- An operation that leaves `K` alone and does not read it, and does not lengthen the key, keeps the relation. -/
theorem map {f : State → State} (h : s.SameButUnreadKey s')
    (hf : ∀ K, f { s with K := K } = { f s with K := K }) (hlen : (f s).KEYLEN.toNat ≤ s.KEYLEN.toNat) :
    (f s).SameButUnreadKey (f s') := by
  have hK : (f s).K = s.K := (congrArg State.K (hf s.K) :)
  have hfs' : f s' = { f s with K := s'.K } := h.eq_update ▸ hf s'.K
  refine ⟨by rw [hfs'], fun n hn => ?_⟩
  rw [hfs', hK]
  exact h.2 n (hn.trans_le hlen)

theorem keylen (h : s.SameButUnreadKey s') : s'.KEYLEN = s.KEYLEN := by rw [h.eq_update]

theorem phase (h : s.SameButUnreadKey s') : s'.PHASE = s.PHASE := by rw [h.eq_update]

theorem pending (h : s.SameButUnreadKey s') : s'.pending = s.pending := by rw [h.eq_update]

/-- KEYB writes the entry at `KEYLEN`, which counts as read from then on (R101). -/
theorem appendKey (h : s.SameButUnreadKey s') (b : Byte) :
    (appendKey b s).SameButUnreadKey (appendKey b s') := by
  refine ⟨?_, fun n hn => ?_⟩
  · rw [appendKey_eq b s', appendKey_eq b s, appendKey_KEYLEN, appendKey_KEYLEN, h.keylen]
    rw [h.eq_update]
  · rw [appendKey_K, appendKey_K, h.keylen]
    rw [appendKey_KEYLEN] at hn
    by_cases hroom : s.KEYLEN.toNat < 256
    · rw [if_pos hroom] at hn
      rw [if_pos hroom, if_pos hroom, Table.entry_put, Table.entry_put]
      by_cases hat : n = s.KEYLEN.setWidth 8
      · rw [if_pos hat, if_pos hat]
      · rw [if_neg hat, if_neg hat]
        exact h.2 n (by bv_omega)
    · rw [if_neg hroom] at hn
      rw [if_neg hroom, if_neg hroom]
      exact h.2 n hn

/-- KSA with a key reads the entries below `KEYLEN` alone (R103, R120). -/
theorem startStream (h : s.SameButUnreadKey s') (hkey : s.KEYLEN ≠ 0) :
    (startStream s).SameButUnreadKey (startStream s') := by
  have hS : keySchedule s.K s.KEYLEN = keySchedule s'.K s'.KEYLEN := by
    rw [h.keylen]
    exact keySchedule_congr (effectiveKey_congr hkey h.2)
  refine ⟨?_, h.2⟩
  unfold Machine.startStream
  rw [← hS, h.eq_update]

theorem complete (h : s.SameButUnreadKey s') : (complete s).SameButUnreadKey (complete s') :=
  h.map (fun _ => rfl) (le_refl _)

theorem raiseError (h : s.SameButUnreadKey s') (e : CommandError) :
    (raiseError e s).SameButUnreadKey (raiseError e s') :=
  h.map (fun _ => by cases e <;> rfl) (by simp)

theorem emitByte (h : s.SameButUnreadKey s') (out : Byte → Byte) :
    (emitByte out s).SameButUnreadKey (emitByte out s') :=
  h.map (fun _ => rfl) (le_refl _)

theorem respond (h : s.SameButUnreadKey s') (r : Response) : (respond r s).SameButUnreadKey (respond r s') :=
  h.map (fun _ => rfl) (le_refl _)

theorem clearFlags (h : s.SameButUnreadKey s') : (clearFlags s).SameButUnreadKey (clearFlags s') :=
  h.map (fun _ => rfl) (le_refl _)

theorem softReset (h : s.SameButUnreadKey s') : (softReset s).SameButUnreadKey (softReset s') :=
  h.map (fun _ => rfl) (Nat.zero_le _)

theorem emptyKey (h : s.SameButUnreadKey s') :
    State.SameButUnreadKey { s with KEYLEN := 0 } { s' with KEYLEN := 0 } :=
  ⟨by rw [h.eq_update], fun _ hn => absurd hn (Nat.not_lt_zero _)⟩

theorem refuseAccess (h : s.SameButUnreadKey s') : (refuseAccess s).SameButUnreadKey (refuseAccess s') :=
  h.map (fun _ => rfl) (le_refl _)

theorem setPending (h : s.SameButUnreadKey s') (p : List Input) :
    State.SameButUnreadKey { s with pending := p } { s' with pending := p } :=
  ⟨by rw [h.eq_update], h.2⟩

/-- Every command keeps the relation. -/
theorem of_exec {i : Instr} {t : State} (h : s.SameButUnreadKey s') (ht : exec i s = .next t) :
    ∃ t', exec i s' = .next t' ∧ t.SameButUnreadKey t' := by
  rcases exec_cases ht with ⟨rfl, rfl⟩ | ⟨rfl, rfl⟩ | ⟨rfl, rfl⟩ | ⟨rfl, rfl⟩ | ⟨b, rfl, rfl⟩ | ⟨rfl, hkey, rfl⟩ |
    ⟨rfl, hkey, rfl⟩ | ⟨rfl | ⟨d, rfl⟩, hphase, rfl⟩ | ⟨rfl, hphase, rfl⟩ | ⟨d, rfl, hphase, rfl⟩
  · exact ⟨_, rfl, h.complete⟩
  · exact ⟨_, rfl, h.softReset.complete⟩
  · exact ⟨_, rfl, h.clearFlags.complete⟩
  · exact ⟨_, rfl, h.emptyKey.complete⟩
  · exact ⟨_, rfl, (h.appendKey b).complete⟩
  · exact ⟨_, exec_ksa_of_empty (h.keylen.trans hkey), h.raiseError _⟩
  · exact ⟨_, exec_ksa_of_key (h.keylen ▸ hkey), (h.startStream hkey).complete⟩
  · exact ⟨_, exec_ks_of_unkeyed (h.phase.trans hphase), h.raiseError _⟩
  · exact ⟨_, exec_xor_of_unkeyed d (h.phase.trans hphase), h.raiseError _⟩
  · exact ⟨_, exec_ks_of_ready (h.phase.trans hphase), (h.emitByte _).complete⟩
  · exact ⟨_, exec_xor_of_ready d (h.phase.trans hphase), (h.emitByte _).complete⟩

/-- No register shows an entry of `K` (R36, R47). -/
theorem value (h : s.SameButUnreadKey s') (r : Register) : r.value s' = r.value s := by
  rw [h.eq_update]
  cases r <;> rfl

/-- Every access keeps the relation. -/
theorem of_serve {a : Access} {t : State} (h : s.SameButUnreadKey s') (ht : serve a s = .next t) :
    ∃ t', serve a s' = .next t' ∧ t.SameButUnreadKey t' := by
  rcases serve_cases ht with ⟨off, size, r, rfl, hr, rfl⟩ | ⟨hrefused, rfl⟩ | ⟨off, size, w, i, u, rfl, hw, hi, hu, rfl⟩ |
    ⟨off, size, w, e, rfl, hw, he, rfl⟩
  · exact ⟨_, serve_read hr s', h.value r ▸ h.respond _⟩
  · exact ⟨_, serve_refused hrefused s', h.refuseAccess⟩
  · obtain ⟨u', hu', hsame⟩ := h.of_exec hu
    refine ⟨_, ?_, hsame.respond _⟩
    rw [write_eq_writeCmd hw, serve_writeCmd, executeWord_of_decode hi, hu']
    rfl
  · refine ⟨_, ?_, (h.raiseError _).respond _⟩
    rw [write_eq_writeCmd hw, serve_writeCmd, executeWord_of_error he]
    rfl

end State.SameButUnreadKey

theorem serveInput_of_isReset {x : Input} (hx : x.isReset = true) (s : State) :
    serveInput x s = .next (hardReset s) := by
  obtain ⟨t, ht⟩ := serveInput_next x s
  rcases serveInput_cases ht with ⟨a, rfl, -⟩ | ⟨-, rfl⟩
  · cases hx
  · exact ht

/-- Every input keeps the relation: an access, or the reset input, which draws the same new key buffer for both. -/
theorem State.SameButUnreadKey.of_serveInput {s s' t : State} {x : Input} (h : s.SameButUnreadKey s')
    (ht : serveInput x s = .next t) : ∃ t', serveInput x s' = .next t' ∧ t.SameButUnreadKey t' := by
  rcases serveInput_cases ht with ⟨a, rfl, ha⟩ | ⟨hx, rfl⟩
  · exact h.of_serve ha
  · exact ⟨_, serveInput_of_isReset hx s', by rw [h.eq_update]; exact ⟨rfl, fun _ _ => rfl⟩⟩

/-- Settles O37: both states have the same next input, and answering it keeps the relation. -/
theorem unreadKeyIsNeverObserved : Obligations.UnreadKeyIsNeverObserved := by
  intro s s' t h ht
  rcases step_cases ht with ⟨hp, rfl⟩ | ⟨x, rest, hp, hx⟩
  · exact ⟨s', by simp [step, serveNext, h.pending, hp], h⟩
  · rw [step_of_pending (h.pending.trans hp)]
    exact (h.setPending rest).of_serveInput hx

end Sys2Proof.Machine
end

section
/-! What a host reads, and that it writes nothing but `CMD` (R37 to R45, R52, R206). -/

namespace Sys2Proof.Machine

/-- A write of any other offset than that of `CMD` is refused, whatever its size and data (R52, R53). -/
theorem serve_write_of_ne_cmd {off : Offset} (h : off ≠ cmdOffset) (size : AccessSize) (v : Word) (s : State) :
    serve (.write off size v) s = .next (refuseAccess s) :=
  serve_refused (by simp [Access.accepted, writeAccepted, h]) s

/-- A read of `CMD` is refused, whatever its size: it holds no value (R37). -/
theorem serve_read_cmd (size : AccessSize) (s : State) : serve (.read cmdOffset size) s = .next (refuseAccess s) :=
  serve_refused (by cases size <;> rfl) s

/-- Settles O23: the word write acknowledges what its command answers, and a read of `CMD` is refused. -/
theorem cmdIsWriteOnly : Obligations.CmdIsWriteOnly := by
  refine ⟨fun w i s t hdecode hexec => ?_, serve_read_cmd⟩
  calc serve (writeCmd w) s
    _ = acknowledge (executeWord w s) := serve_writeCmd w s
    _ = acknowledge (exec i s) := congrArg acknowledge (executeWord_of_decode hdecode s)
    _ = acknowledge (.next t) := congrArg acknowledge hexec

theorem Phase.bit_getElem_zero (p : Phase) : p.bit[0] = (p = .READY : Bool) := by
  cases p <;> rfl

/-- R38, bit by bit: which piece of state each bit of `STATUS` shows, and 0 in the reserved bits (R45). -/
theorem getLsbD_statusWord (s : State) (n : Nat) :
    (statusWord s).getLsbD n =
      if n = 0 then (s.PHASE = .READY : Bool) else if n < 4 then false else if n < 8 then s.LASTRES.getLsbD (n - 4)
      else if n = 8 then s.E_INVKEY else if n = 9 then s.E_NOTKEYED else if n = 10 then s.E_ILLCMD
      else if n = 11 then s.E_BUS else false := by
  rw [statusWord, BitVec.getLsbD_setWidth]
  by_cases hn : n < 12
  · simp only [BitVec.getLsbD_append]
    interval_cases n <;> simp [Phase.bit_getElem_zero]
  · rw [BitVec.getLsbD_of_ge _ _ (by omega)]
    grind

/-- Settles O20: the bits of the status word one by one; `STATUS` reads as that word, and a write of it is refused. -/
theorem statusWordFields : Obligations.StatusWordFields := by
  refine ⟨fun s => ⟨getLsbD_statusWord s 0, ?_, ?_, getLsbD_statusWord s 8, getLsbD_statusWord s 9,
    getLsbD_statusWord s 10, getLsbD_statusWord s 11, ?_, serve_rd .STATUS s⟩, by decide,
    fun s size v => serve_write_of_ne_cmd (by decide) size v s⟩
  all_goals
    ext i hi
    simp only [BitVec.getElem_extractLsb', getLsbD_statusWord]
    grind

/-- `INDEX` holds `J` above `I` (R41). -/
theorem toNat_indexWord (s : State) : (indexWord s).toNat = s.J.toNat * 256 + s.I.toNat := by
  have hI := s.I.isLt
  have hJ := s.J.isLt
  rw [indexWord, BitVec.toNat_setWidth, BitVec.toNat_append, ← Nat.shiftLeft_add_eq_or_of_lt hI, Nat.shiftLeft_eq]
  omega

/-- The offset of `SWIN[n]` as a number: four bytes for each entry, from 0x400 (R44). -/
theorem offset_swin (n : Byte) : BitVec.ofNat 12 (0x400 + 4 * n.toNat) = (Register.SWIN n).offset := by
  apply BitVec.eq_of_toNat_eq
  simp [Register.offset, Nat.shiftLeft_eq, Nat.mul_comm]

/-- Settles O21: a read at a register's offset gives its value, zero extended; any write but of `CMD` is refused. -/
theorem registerReadsGiveValues : Obligations.RegisterReadsGiveValues := by
  refine ⟨fun s => ⟨Register.DOUT.value s, Register.KEYLEN.value s, Register.INDEX.value s, serve_rd .DOUT s, ?_,
    serve_rd .KEYLEN s, ?_, serve_rd .INDEX s, toNat_indexWord s⟩, fun s => ⟨serve_rd .COUNT s, serve_rd .ID s⟩,
    fun s n => ⟨(Register.SWIN n).value s, ?_, ?_⟩, fun s off size v hoff => serve_write_of_ne_cmd hoff size v s⟩
  · exact BitVec.toNat_setWidth_of_le (by decide)
  · exact BitVec.toNat_setWidth_of_le (by decide)
  · exact BitVec.toNat_setWidth_of_le (by decide)
  · rw [offset_swin]
    exact serve_rd (.SWIN n) s

end Sys2Proof.Machine
end

section
/-! The flags, the phase and the result code over a step (R26, R29, R30, R46): what a reset input, a command and every other
access leave there. -/

namespace Sys2Proof.Machine

/-- The command of an accepted write is what its word decodes to. -/
theorem command_of_write {off : Offset} {size : AccessSize} {w : Word} (hw : writeAccepted off size = true) :
    (Input.access (.write off size w)).command? = (decode w).toOption := by
  simp [Input.command?, hw]

/-- An access executes a command and is acknowledged, or it executes none: then it is an accepted read, a refused access
or an illegal word. -/
theorem serve_command_cases {a : Access} {s t : State} (h : serve a s = .next t) :
    (∃ i u, (Input.access a).command? = some i ∧ exec i s = .next u ∧ t = respond { rdata := 0, err := false } u) ∨
    ((Input.access a).command? = none ∧
      ((∃ r, t = respond r s) ∨ (a.accepted = false ∧ t = refuseAccess s) ∨
        t = respond { rdata := 0, err := false } (raiseError .ILLEGAL_CMD s))) := by
  rcases serve_cases h with ⟨off, size, r, rfl, -, rfl⟩ | ⟨hrefused, rfl⟩ | ⟨off, size, w, i, u, rfl, hw, hi, hu, rfl⟩ |
    ⟨off, size, w, e, rfl, hw, he, rfl⟩
  · exact .inr ⟨rfl, .inl ⟨_, rfl⟩⟩
  · exact .inr ⟨command_of_refused hrefused, .inr (.inl ⟨hrefused, rfl⟩)⟩
  · exact .inl ⟨i, u, by rw [command_of_write hw, hi]; rfl, hu, rfl⟩
  · exact .inr ⟨by rw [command_of_write hw, he]; rfl, .inr (.inr rfl)⟩

theorem command_of_isReset {x : Input} (hx : x.isReset = true) : x.command? = none := by
  cases x with
  | access a => cases hx
  | reset => rfl
  | resetDuring a => rfl

/-- Settles O30: the reset input leaves the values of R46 (`hardReset`), which are those of `State.reset`. -/
theorem resetStateValues : Obligations.ResetStateValues := by
  refine ⟨fun s rest hp => ⟨hardReset { s with pending := rest }, step_of_pending hp, Table.entry_identity, ?_⟩,
    Table.entry_identity, ?_⟩
  · exact ⟨rfl, rfl, rfl, rfl, rfl, rfl, rfl, rfl, rfl, rfl, rfl⟩
  · exact ⟨rfl, rfl, rfl, rfl, rfl, rfl, rfl, rfl, rfl, rfl, rfl⟩

/-! ### The sticky flags -/

theorem clearsFlags_of_command {a : Access} {i : Instr} (h : (Input.access a).command? = some i) :
    (Input.access a).clearsFlags = true ↔ i ∈ [Instr.reset, .clrerr] := by
  simp [Input.clearsFlags, Input.isReset, h, or_comm]

theorem clearsFlags_of_no_command {a : Access} (h : (Input.access a).command? = none) :
    (Input.access a).clearsFlags = false := by
  simp [Input.clearsFlags, Input.isReset, h]

section
variable {a : Access} {s t : State}

/-- An access that executes neither RESET nor CLRERR keeps every flag that is 1 (R30). -/
theorem serve_keeps_flags (h : serve a s = .next t) (hkeep : (Input.access a).clearsFlags = false) :
    (s.E_INVKEY = true → t.E_INVKEY = true) ∧ (s.E_NOTKEYED = true → t.E_NOTKEYED = true) ∧
      (s.E_ILLCMD = true → t.E_ILLCMD = true) ∧ (s.E_BUS = true → t.E_BUS = true) := by
  rcases serve_command_cases h with ⟨i, u, hi, hu, rfl⟩ | ⟨-, ⟨r, rfl⟩ | ⟨-, rfl⟩ | rfl⟩
  · have hmem : i ∉ [Instr.reset, .clrerr] := by simp [← clearsFlags_of_command hi, hkeep]
    obtain ⟨hinv, hnot, hill, hbus⟩ := (exec_flags hu).2 hmem
    simp +contextual [hinv, hnot, hill, hbus]
  · simp
  · simp
  · simp

/-- RESET and CLRERR clear all four flags (R171, R172). -/
theorem serve_clears_flags (h : serve a s = .next t) (hclear : (Input.access a).clearsFlags = true) :
    t.anyFlag = false := by
  rcases serve_command_cases h with ⟨i, u, hi, hu, rfl⟩ | ⟨hnone, -⟩
  · exact (exec_flags hu).1 ((clearsFlags_of_command hi).1 hclear)
  · simp [clearsFlags_of_no_command hnone] at hclear

/-- `E_BUS` is set by a refused access alone (R206). -/
theorem refused_of_E_BUS_rises (h : serve a s = .next t) (hs : s.E_BUS = false) (ht : t.E_BUS = true) :
    a.accepted = false := by
  rcases serve_command_cases h with ⟨i, u, hi, hu, rfl⟩ | ⟨-, ⟨r, rfl⟩ | ⟨hrefused, -⟩ | rfl⟩
  · have hu' : u.E_BUS = false := by
      by_cases hmem : i ∈ [Instr.reset, .clrerr]
      · have hall := (exec_flags hu).1 hmem
        simp only [State.anyFlag, Bool.or_eq_false_iff] at hall
        exact hall.2
      · obtain ⟨-, -, -, hbus⟩ := (exec_flags hu).2 hmem
        exact hbus.trans hs
    simp [hu'] at ht
  · simp [hs] at ht
  · exact hrefused
  · simp [hs] at ht

end

/-- Settles O38: an access keeps or clears the flags by what it executes, and a reset input clears them. -/
theorem stickyFlagsAccumulate : Obligations.StickyFlagsAccumulate := by
  intro s t x rest hp h
  rcases step_of_pending_cases hp h with ⟨a, rfl, ha⟩ | ⟨hx, rfl⟩
  · exact ⟨(serve_keeps_flags ha :), serve_clears_flags ha, fun hs ht => ⟨a, rfl, refused_of_E_BUS_rises ha hs ht⟩⟩
  · have hclears : x.clearsFlags = true := by simp [Input.clearsFlags, hx]
    refine ⟨fun hkeep => ?_, fun _ => rfl, fun _ hbus => ?_⟩
    · simp [hclears] at hkeep
    · simp at hbus

/-! ### The phase -/

/-- An access that executes no command leaves `PHASE`. -/
theorem serve_PHASE_of_no_command {a : Access} {s t : State} (h : serve a s = .next t)
    (hnone : (Input.access a).command? = none) : t.PHASE = s.PHASE := by
  rcases serve_command_cases h with ⟨i, u, hi, -, -⟩ | ⟨-, ⟨r, rfl⟩ | ⟨-, rfl⟩ | rfl⟩
  · rw [hnone] at hi
    cases hi
  · rfl
  · rfl
  · rfl

/-- Settles O42: of the commands only RESET and KSA write `PHASE`, other accesses leave it, and a reset input sets
`UNKEYED`. -/
theorem phaseChangesExactly : Obligations.PhaseChangesExactly := by
  intro s t x rest hp h
  rcases step_of_pending_cases hp h with ⟨a, rfl, ha⟩ | ⟨hx, rfl⟩
  · rcases serve_command_cases ha with ⟨i, u, hi, hu, rfl⟩ | ⟨hnone, -⟩
    · rw [respond_PHASE, exec_PHASE hu, hi]
      by_cases hreset : i = .reset
      · simp [hreset]
      · by_cases hksa : i = .ksa
        · simp [hksa, Input.isReset]
        · simp_all [Input.isReset]
    · rw [serve_PHASE_of_no_command ha hnone, hnone]
      simp_all [Input.isReset]
  · simp [hx, command_of_isReset hx]

/-! ### The result code -/

/-- No command reads `LASTRES`, and each writes it (R29). -/
theorem exec_of_set_lastres (i : Instr) (s : State) (v : BitVec 4) : exec i { s with LASTRES := v } = exec i s := by
  cases i with
  | nop | reset | clrerr | clrkey => rfl
  | keyb b =>
    simp only [exec, execKeyb, appendKey]
    split <;> rfl
  | ksa =>
    simp only [exec, execKsa]
    split <;> rfl
  | ks =>
    simp only [exec, execKs]
    split <;> rfl
  | xor d =>
    simp only [exec, execXor]
    split <;> rfl

theorem executeWord_of_set_lastres (w : Word) (s : State) (v : BitVec 4) :
    executeWord w { s with LASTRES := v } = executeWord w s := by
  cases h : decode w with
  | ok i => rw [executeWord_of_decode h, executeWord_of_decode h, exec_of_set_lastres]
  | error e => rw [executeWord_of_error h, executeWord_of_error h]; rfl

/-- The codes a word leaves in `LASTRES`: those of R29, 0 to 3. -/
theorem executeWord_lastres_le {w : Word} {s t : State} (h : executeWord w s = .next t) : t.LASTRES ≤ 3 := by
  rcases executeWord_cases h with ⟨i, -, hi⟩ | ⟨e, -, rfl⟩
  · rcases exec_lastres hi with h0 | ⟨h1 | h2, -⟩ <;> simp [*]
  · exact BitVec.le_refl _

/-- Settles O41: a written word gives its code whatever `LASTRES` was; no other access, and no idle step, touches it. -/
theorem lastresWrittenByCommandsAndReset : Obligations.LastresWrittenByCommandsAndReset := by
  refine ⟨fun w s t h => ⟨?_, fun v => ?_⟩, fun a s t h ha => ?_, fun s t hp h => ?_, fun s t x rest hp hx h => ?_⟩
  · change serve (writeCmd w) s = _ at h
    obtain ⟨u, hu⟩ := executeWord_next w s
    rw [serve_writeCmd, hu] at h
    obtain rfl := Host.Outcome.next.inj h
    exact (executeWord_lastres_le hu :)
  · change serve (writeCmd w) _ = _ at h ⊢
    rw [serve_writeCmd, executeWord_of_set_lastres, ← serve_writeCmd, h]
  · rcases serve_cases h with ⟨off, size, r, -, -, rfl⟩ | ⟨-, rfl⟩ | ⟨off, size, w, i, u, rfl, hw, -, -, -⟩ |
      ⟨off, size, w, e, rfl, hw, -, -⟩
    · rfl
    · rfl
    · exact absurd (write_eq_writeCmd hw w) (ha w)
    · exact absurd (write_eq_writeCmd hw w) (ha w)
  · rcases step_cases h with ⟨-, rfl⟩ | ⟨x, rest, hp', -⟩
    · rfl
    · rw [hp] at hp'
      cases hp'
  · rw [step_of_pending hp, serveInput_of_isReset hx] at h
    obtain rfl := Host.Outcome.next.inj h
    rfl

end Sys2Proof.Machine
end

section
/-! The byte lanes of a bus word (R57): joined again they are the word, which the decoder reads in whole (R88). -/

namespace Sys2Proof

/-- The four lanes of a word, joined, are its bits [31:0]. -/
theorem wordOfLanes_extractLsb (w : Word) :
    wordOfLanes (w.extractLsb' 0 8) (w.extractLsb' 8 8) (w.extractLsb' 16 8) (w.extractLsb' 24 8) = w := by
  have h16 : w.extractLsb' 24 8 ++ w.extractLsb' 16 8 = w.extractLsb' 16 16 :=
    BitVec.extractLsb'_append_extractLsb'_eq_extractLsb' rfl
  have h8 : w.extractLsb' 16 16 ++ w.extractLsb' 8 8 = w.extractLsb' 8 24 :=
    BitVec.extractLsb'_append_extractLsb'_eq_extractLsb' rfl
  have h0 : w.extractLsb' 8 24 ++ w.extractLsb' 0 8 = w.extractLsb' 0 32 :=
    BitVec.extractLsb'_append_extractLsb'_eq_extractLsb' rfl
  rw [wordOfLanes, h16, h8, h0, BitVec.extractLsb'_eq_self]

/-- Lane `k` of a word is its bits [8k+7:8k]. -/
theorem lanesOf_getElem? (w : Word) (k : Fin 4) : (lanesOf w)[k.val]? = some (w.extractLsb' (8 * k.val) 8) := by
  match k with
  | 0 | 1 | 2 | 3 => rfl

/-- Decoding takes the four lanes of a word and leaves the lanes after them. -/
theorem decodeBytes_lanesOf_append (w : Word) (rest : List Byte) :
    decodeBytes (lanesOf w ++ rest) = (decode w).map fun i => (i, rest) := by
  simp only [lanesOf, List.cons_append, List.nil_append, decodeBytes, wordOfLanes_extractLsb]

/-- Settles O4: the lanes one by one, and the word they join to. -/
theorem byteLanesLittleEndian : Obligations.ByteLanesLittleEndian :=
  ⟨lanesOf_getElem?, decodeBytes_lanesOf_append⟩

end Sys2Proof
end

section
/-! Which accesses the engine accepts (R52), what an accepted read gives (R54), and where in the window the offset of an
access comes from (R51, R56). -/

namespace Sys2Proof.Machine

/-- Only a 4-byte access at a multiple of 4 can be accepted (R52, R58). -/
theorem wordAligned_iff {off : Offset} {size : AccessSize} :
    wordAligned off size = true ↔ size = .word ∧ off.toNat % 4 = 0 := by
  simp only [wordAligned, Bool.and_eq_true, decide_eq_true_eq, extractLsb_low_two_eq_zero_iff]

/-- A read names a register exactly when it is a word-aligned read of an offset of R36. -/
theorem readTarget_isSome_iff {off : Offset} {size : AccessSize} :
    (readTarget off size).isSome = true ↔ size = .word ∧ off.toNat % 4 = 0 ∧
      (off.toNat ∈ [0x004, 0x008, 0x00C, 0x010, 0x014, 0x018] ∨ 0x400 ≤ off.toNat ∧ off.toNat ≤ 0x7FC) := by
  rw [← and_assoc, ← wordAligned_iff, ← atOffset_isSome_iff]
  by_cases h : wordAligned off size = true <;> simp [readTarget, h]

/-- Settles O19: a read is accepted when it names a register, a write when it is the word write of `CMD`. -/
theorem accessesAcceptedExactly : Obligations.AccessesAcceptedExactly := by
  refine ⟨fun off size => readTarget_isSome_iff, fun off size v => ?_, fun a s h => serve_refused h s⟩
  calc writeAccepted off size = true
    _ ↔ off = cmdOffset ∧ size = .word := writeAccepted_iff
    _ ↔ size = .word ∧ off = cmdOffset := and_comm
    _ ↔ size = .word ∧ off.toNat = 0x000 := by rw [← BitVec.toNat_inj]; rfl

/-- A read with accepted reads after it, then the same read again: both give the same response (R54), since the reads
between them change nothing but the list of responses. -/
theorem serveAll_read_again {off : Offset} {size : AccessSize} {reg : Register} (hreg : readTarget off size = some reg)
    {l : List Access} (hl : ∀ a ∈ l, ∃ off' size', a = .read off' size' ∧ a.accepted = true) (s : State) :
    ∃ m, serveAll (.read off size :: (l ++ [.read off size])) s =
      .next { s with responses := s.responses ++ ⟨reg.value s, false⟩ :: (m ++ [⟨reg.value s, false⟩]) } := by
  obtain ⟨m, hm⟩ := serveAll_reads hl (respond ⟨reg.value s, false⟩ s)
  refine ⟨m, ?_⟩
  rw [serveAll_cons (serve_read hreg s), serveAll_append hm, serveAll_cons (serve_read hreg _)]
  simp [serveAll, respond]

/-- Settles O22: an accepted read only adds its response, and adds it again after any accepted reads. -/
theorem readsHaveNoSideEffects : Obligations.ReadsHaveNoSideEffects := fun off size =>
  ⟨Option.isSome_iff_exists, fun _ s hreg => ⟨serve_read hreg s, fun _ hl => serveAll_read_again hreg hl s⟩,
    fun s hnone => serve_refused (by simp [Access.accepted, hnone]) s⟩

theorem inWindow_iff {addr : Nat} :
    inWindow addr = true ↔ Config.rc4Base ≤ addr ∧ addr < Config.rc4Base + 4096 := by
  simp [inWindow]

/-- At or above the 4096-aligned base, the offset is the low 12 bits of the address, wherever the base is (R51). -/
theorem offsetOf_of_base_le {addr : Nat} (h : Config.rc4Base ≤ addr) : offsetOf addr = BitVec.ofNat 12 addr := by
  apply BitVec.eq_of_toNat_eq
  rw [offsetOf, BitVec.toNat_ofNat, BitVec.toNat_ofNat]
  exact Nat.sub_mul_mod h

/-- `req_size` 2 alone is the size of a word (R56). -/
theorem ofReqSize_eq_word_iff {size : BitVec 2} : AccessSize.ofReqSize size = .word ↔ size = 2 := by
  revert size
  decide

/-- An access of another size than a word is refused, in both directions (R52). -/
theorem ofPorts_refused {size : BitVec 2} (hsize : size ≠ 2) (wr : BitVec 1) (off : Offset) (v : Word) :
    (Access.ofPorts wr off size v).accepted = false := by
  have haligned : wordAligned off (.ofReqSize size) = false := by
    rw [Bool.eq_false_iff, ne_eq, wordAligned_iff, ofReqSize_eq_word_iff]
    exact fun h => hsize h.1
  unfold Access.ofPorts
  split
  · simp [Access.accepted, writeAccepted, haligned]
  · simp [Access.accepted, readTarget, haligned]

/-- Settles O24: in the window the offset is the low 12 bits of the address, and only `req_size` 2 is a word. -/
theorem windowDecodesLowAddressBits : Obligations.WindowDecodesLowAddressBits := by
  refine ⟨fun addr haddr => ?_, fun off hoff => ⟨?_, ?_⟩, fun wr off size v hsize => ofPorts_refused hsize wr off v⟩
  · have hoffset := offsetOf_of_base_le (inWindow_iff.1 haddr).1
    exact ⟨by rw [memRead, if_pos haddr, hoffset]; rfl, fun v => by rw [memWrite, if_pos haddr, hoffset]; rfl⟩
  · exact inWindow_iff.2 ⟨Nat.le_add_right _ _, Nat.add_lt_add_left hoff _⟩
  · rw [offsetOf, Nat.add_sub_cancel_left]

end Sys2Proof.Machine
end

section
/-! Runs on pending inputs: each step answers the next one (R56, R63, R231). -/

namespace Sys2Proof.Machine

/-- Settles O28, by induction on the list of accesses: a step serves the first of them, and what is pending has no part
in its answer. -/
theorem runServesAccessesInOrder : Obligations.RunServesAccessesInOrder := by
  intro l
  induction l with
  | nil =>
    rintro s rest rfl
    rfl
  | cons a l ih =>
    intro s rest hp
    obtain ⟨t, ht⟩ := serve_next a { s with pending := l.map .access ++ rest }
    have hstep : step s = .next t := (step_of_pending hp).trans ht
    have hserve : serve a { s with pending := rest } = .next { t with pending := rest } :=
      serve_pending (s := { s with pending := l.map .access ++ rest }) rest ht
    have hrun : Host.Core.run Sys2Proof.core l.length t = serveAll l { t with pending := rest } :=
      ih t rest (serve_bus ht).1
    exact ((run_succ hstep).trans hrun).trans (serveAll_cons hserve).symm

/-- Settles O29: an access adds its one response, and the reset input keeps the responses. -/
theorem oneResponsePerAccess : Obligations.OneResponsePerAccess := by
  intro s t x rest hp h
  rcases step_of_pending_cases hp h with ⟨a, rfl, ha⟩ | ⟨hx, rfl⟩
  · obtain ⟨hpending, -, hresponse⟩ := serve_bus ha
    exact ⟨hpending, fun _ => hresponse, fun hreset => by cases hreset⟩
  · refine ⟨rfl, ?_, fun _ => rfl⟩
    rintro ⟨a, rfl⟩
    cases hx

end Sys2Proof.Machine
end

section
/-! The round trip of command words (R84, R85, R88) and the words that are illegal (R86). -/

namespace Sys2Proof

/-- No opcode is both of a command with an operand and of one without (R84). -/
theorem not_mem_withoutOperand_of_mem_withOperand {op : Byte} (h : op ∈ opcodesWithOperand) :
    op ∉ opcodesWithoutOperand := by
  revert op
  decide

/-- A word read as a command is that command's word: its reserved bits are 0, its other two fields the command's. -/
theorem eq_encode_of_decode {w : Word} {i : Instr} (h : decode w = .ok i) : w = encode i := by
  rcases decode_cases w with ⟨he, -⟩ | ⟨hrsv, ⟨j, hj, hop, hdata⟩ | ⟨he, -⟩ | ⟨he, -⟩⟩
  · cases h.symm.trans he
  · obtain rfl : i = j := Except.ok.inj (h.symm.trans hj)
    calc w
      _ = enc (CommandFields.ofWord w).op (CommandFields.ofWord w).data := eq_enc_of_rsv hrsv
      _ = encode i := by rw [← hop, ← hdata]; rfl
  · cases h.symm.trans he
  · cases h.symm.trans he

/-- Every command is read back from its word: no rejection of R85 applies to it, and its fields name no other command. -/
@[simp] theorem decode_encode (i : Instr) : decode (encode i) = .ok i := by
  have hcases := decode_cases (encode i)
  simp only [ofWord_encode] at hcases
  rcases hcases with ⟨-, hrsv⟩ | ⟨-, ⟨j, hj, hop, hdata⟩ | ⟨-, hwithout, hdata⟩ | ⟨-, hwithout, hwith⟩⟩
  · exact absurd rfl hrsv
  · rw [hj, Instr.ext_fields hop hdata]
  · rcases i.opcode_data with hwith | ⟨-, hzero⟩
    · exact absurd hwithout (not_mem_withoutOperand_of_mem_withOperand hwith)
    · exact absurd hzero hdata
  · rcases i.opcode_data with hmem | ⟨hmem, -⟩
    · exact absurd hmem hwith
    · exact absurd hmem hwithout

/-- Settles O2: one direction for words, one for commands. -/
theorem decodeAgreesWithEncode : Obligations.DecodeAgreesWithEncode := by
  refine fun w i => ⟨eq_encode_of_decode, ?_⟩
  rintro rfl
  exact decode_encode i

/-- The opcodes of R84 are those of the commands with an operand and those of the commands without. -/
theorem mem_opcodes_iff (op : Byte) :
    op ∈ ([0x00, 0x01, 0x02, 0x03, 0x04, 0x10, 0x20, 0x21] : List Byte) ↔
      op ∈ opcodesWithOperand ∨ op ∈ opcodesWithoutOperand := by
  simp only [opcodesWithOperand, opcodesWithoutOperand, List.mem_cons, List.not_mem_nil, or_false]
  tauto

/-- The decoder rejects a word exactly for one of the three causes of R86. -/
theorem decode_eq_error_iff (w : Word) :
    (∃ e, decode w = .error e) ↔
      (CommandFields.ofWord w).rsv ≠ 0 ∨
      (CommandFields.ofWord w).op ∉ ([0x00, 0x01, 0x02, 0x03, 0x04, 0x10, 0x20, 0x21] : List Byte) ∨
      ((CommandFields.ofWord w).op ∈ opcodesWithoutOperand ∧ (CommandFields.ofWord w).data ≠ 0) := by
  rw [mem_opcodes_iff]
  rcases decode_cases w with ⟨he, hrsv⟩ | ⟨hrsv, ⟨i, hi, hop, hdata⟩ | ⟨he, hop, hdata⟩ | ⟨he, hwithout, hwith⟩⟩
  · exact iff_of_true ⟨_, he⟩ (.inl hrsv)
  · refine iff_of_false (fun ⟨e, he⟩ => by cases hi.symm.trans he) ?_
    rw [← hop, ← hdata]
    rintro (h | h | ⟨hwithout, hne⟩)
    · exact h hrsv
    · exact h (i.opcode_data.imp_right And.left)
    · rcases i.opcode_data with hwith | ⟨-, hzero⟩
      · exact not_mem_withoutOperand_of_mem_withOperand hwith hwithout
      · exact hne hzero
  · exact iff_of_true ⟨_, he⟩ (.inr (.inr ⟨hop, hdata⟩))
  · exact iff_of_true ⟨_, he⟩ (.inr (.inl (not_or.2 ⟨hwith, hwithout⟩)))

/-- Settles O3: the causes are those of the decoder on the fields, and every rejected word raises `ILLEGAL_CMD`. -/
theorem illegalWordsExactly : Obligations.IllegalWordsExactly :=
  fun w => ⟨decode_eq_error_iff w, fun ⟨_, he⟩ => Machine.raisesIllegal_of_error he⟩

/-- Settles O1: the legal words are those of `encode`, which the decoder reads back; the three others are computed. -/
theorem tableWordsDecode : Obligations.TableWordsDecode :=
  ⟨decode_encode .nop, decode_encode .reset, decode_encode .clrerr, decode_encode .clrkey, decode_encode (.keyb 0x4B),
    decode_encode .ksa, decode_encode .ks, decode_encode (.xor 0x50), by decide, by decide, by decide⟩

end Sys2Proof
end

section
/-! The assembler's lines (R89): which of them are commands, and the word of each. -/

namespace Sys2Proof.Machine

/-- A well-formed operand fits in a byte (R82, R89). -/
theorem value_lt_of_wellFormed {o : AsmOperand} (h : o.wellFormed = true) : o.value < 256 := by
  cases o with
  | hex n | dec n => exact of_decide_eq_true h
  | quoted c => exact (of_decide_eq_true h).trans (by decide)

theorem operandByte_of_wellFormed {o : AsmOperand} (h : o.wellFormed = true) :
    operandByte o = some (BitVec.ofNat 8 o.value) := by
  simp only [operandByte, if_pos h]

@[simp] theorem isSome_operandByte (o : AsmOperand) : (operandByte o).isSome = o.wellFormed := by
  cases h : o.wellFormed <;> simp [operandByte, h]

/-- A line is a command exactly when it is well formed: its mnemonic has an operand where it takes one, and the operand
is a byte. -/
theorem isSome_assemble (l : AsmLine) : (assemble l).isSome = l.wellFormed := by
  obtain ⟨m, _ | o⟩ := l
  · cases m <;> rfl
  · cases m with
    | KEYB | XOR => simp [assemble, AsmLine.wellFormed, Mnemonic.takesOperand]
    | NOP | RESET | CLRERR | CLRKEY | KSA | KS => rfl

/-- The word of a command that a well-formed operand is the `DATA` of, as a number (R89). -/
theorem toNat_encode_operand {o : AsmOperand} (h : o.wellFormed = true) (command : Byte → Instr) (op : Byte)
    (hword : ∀ b, encode (command b) = enc op b) :
    ((operandByte o).map command).map (fun i => (encode i).toNat) = some (o.value * 256 + op.toNat) := by
  rw [operandByte_of_wellFormed h, Option.map_some, Option.map_some, hword, toNat_enc, BitVec.toNat_ofNat,
    Nat.mod_eq_of_lt (value_lt_of_wellFormed h)]

/-- Settles O5: the lines with an operand by the value of it, the eight written-out lines by computation. -/
theorem assemblerEncodesLines : Obligations.AssemblerEncodesLines :=
  ⟨isSome_assemble, fun _ h =>
    ⟨toNat_encode_operand h .keyb 0x04 fun _ => rfl, toNat_encode_operand h .xor 0x21 fun _ => rfl⟩, by decide⟩

end Sys2Proof.Machine
end

section
/-! The key a state holds (R102): every command, then every step, keeps the record of the KEYB bytes. -/

namespace Sys2Proof.Machine

/-- KEYB adds its byte to the key; with 256 bytes held the buffer is full and stays as it is (R101). -/
theorem State.HoldsKey.appendKey {s : State} {h : List Byte} (hs : s.HoldsKey h) (b : Byte) :
    (appendKey b s).HoldsKey (h ++ [b]) := by
  obtain ⟨hlen, hentry⟩ := hs
  unfold State.HoldsKey
  rw [appendKey_KEYLEN, appendKey_K, List.length_append, List.length_singleton]
  by_cases hroom : s.KEYLEN.toNat < 256
  · have hsucc : (s.KEYLEN + 1).toNat = s.KEYLEN.toNat + 1 := by bv_omega
    have hat : s.KEYLEN.toNat = h.length := by omega
    rw [if_pos hroom, if_pos hroom, hsucc]
    refine ⟨by omega, fun n hn => ?_⟩
    rw [Table.entry_put]
    by_cases hnew : n = s.KEYLEN.setWidth 8
    · have hn' : n.toNat = h.length := by bv_omega
      rw [if_pos hnew, hn', List.getElem?_concat_length]
    · have hn' : n.toNat < s.KEYLEN.toNat := by bv_omega
      rw [if_neg hnew, List.getElem?_append_left (hat ▸ hn'), hentry n hn']
  · rw [if_neg hroom, if_neg hroom]
    refine ⟨by omega, fun n hn => ?_⟩
    rw [List.getElem?_append_left (by omega), hentry n hn]

theorem exec_holdsKey {i : Instr} {s t : State} {h : List Byte} (ht : exec i s = .next t) (hs : s.HoldsKey h) :
    t.HoldsKey (keyAfterCommand h i) := by
  rcases exec_cases ht with ⟨rfl, rfl⟩ | ⟨rfl, rfl⟩ | ⟨rfl, rfl⟩ | ⟨rfl, rfl⟩ | ⟨b, rfl, rfl⟩ | ⟨rfl, -, rfl⟩ |
    ⟨rfl, -, rfl⟩ | ⟨rfl | ⟨d, rfl⟩, -, rfl⟩ | ⟨rfl, -, rfl⟩ | ⟨d, rfl, -, rfl⟩
  · exact hs.congr rfl rfl
  · exact State.holdsKey_nil rfl
  · exact hs.congr rfl rfl
  · exact State.holdsKey_nil rfl
  · exact (hs.appendKey b).congr rfl rfl
  · exact hs.congr rfl rfl
  · exact hs.congr rfl rfl
  · exact hs.congr rfl rfl
  · exact hs.congr rfl rfl
  · exact hs.congr rfl rfl
  · exact hs.congr rfl rfl

theorem keyHistory_of_command {x : Input} {i : Instr} (hx : x.command? = some i) (h : List Byte) :
    keyHistory h x = keyAfterCommand h i := by
  have hreset : ¬ x.isReset = true := fun hr => by simp [command_of_isReset hr] at hx
  rw [keyHistory, if_neg hreset, hx]

theorem keyHistory_of_no_command {a : Access} (ha : (Input.access a).command? = none) (h : List Byte) :
    keyHistory h (.access a) = h := by
  simp [keyHistory, Input.isReset, ha]

/-- An access without a command touches neither `K` nor `KEYLEN`. -/
theorem serve_holdsKey {a : Access} {s t : State} {h : List Byte} (ht : serve a s = .next t) (hs : s.HoldsKey h) :
    t.HoldsKey (keyHistory h (.access a)) := by
  rcases serve_command_cases ht with ⟨i, u, hi, hu, rfl⟩ | ⟨hnone, hways⟩
  · rw [keyHistory_of_command hi]
    exact (exec_holdsKey hu hs).congr rfl rfl
  · rw [keyHistory_of_no_command hnone]
    rcases hways with ⟨r, rfl⟩ | ⟨-, rfl⟩ | rfl
    · exact hs.congr rfl rfl
    · exact hs.congr rfl rfl
    · exact hs.congr rfl rfl

/-- Settles O35: an access keeps the record by what it executes, and a reset input leaves the key of no bytes. -/
theorem stepKeepsLoadedKey : Obligations.StepKeepsLoadedKey := by
  refine ⟨State.holdsKey_nil rfl, fun s t h x rest hp hs ht => ?_⟩
  rcases step_of_pending_cases hp ht with ⟨a, rfl, ha⟩ | ⟨hx, rfl⟩
  · exact serve_holdsKey ha (hs.congr rfl rfl)
  · rw [keyHistory, if_pos hx]
    exact State.holdsKey_nil rfl

end Sys2Proof.Machine
end

section
/-! SCHEDULE (R90): it loads its key and schedules it, as the source does for a key of any length (R104, R105). -/

namespace Sys2Proof.Machine

/-- `WR CMD` of a command executes it and is acknowledged (R55, R91). -/
theorem serve_wr {i : Instr} {s t : State} (h : exec i s = .next t) :
    serve (wr i) s = .next (respond { rdata := 0, err := false } t) := by
  rw [wr, serve_writeCmd, executeWord_of_decode (decode_encode i), h]
  rfl

/-- Any number of KEYB commands append their bytes to the key held. -/
theorem serveAll_keyb (k : List Byte) {s : State} {h : List Byte} (hs : s.HoldsKey h) :
    ∃ t, serveAll (k.map fun b => wr (.keyb b)) s = .next t ∧ t.HoldsKey (h ++ k) := by
  induction k generalizing s h with
  | nil => exact ⟨s, rfl, by rwa [List.append_nil]⟩
  | cons b k ih =>
    have hb : (respond { rdata := 0, err := false } (complete (appendKey b s))).HoldsKey (h ++ [b]) :=
      (hs.appendKey b).congr rfl rfl
    obtain ⟨t, ht, htk⟩ := ih hb
    refine ⟨t, ?_, by rwa [List.append_cons]⟩
    rw [List.map_cons, serveAll_cons (serve_wr rfl), ht]

/-- LOADKEY leaves the key held, from any state. -/
theorem serveAll_loadKey (k : List Byte) (s : State) : ∃ t, serveAll (loadKey k) s = .next t ∧ t.HoldsKey k := by
  rw [loadKey, serveAll_cons (serve_wr rfl)]
  exact serveAll_keyb k (State.holdsKey_nil rfl)

theorem State.HoldsKey.keylen_ne_zero {s : State} {k : List Byte} (hs : s.HoldsKey k) (hk : k ≠ []) :
    s.KEYLEN ≠ 0 := by
  intro hzero
  have hlen : 0 = min k.length 256 := (congrArg BitVec.toNat hzero).symm.trans hs.1
  have hpos := List.length_pos_iff.2 hk
  omega

/-- SCHEDULE of a non-empty key ends with the fresh stream of a state that holds the key. -/
theorem serveAll_schedule {k : List Byte} (hk : k ≠ []) (s : State) :
    ∃ u, u.HoldsKey k ∧
      serveAll (schedule k) s = .next (respond { rdata := 0, err := false } (complete (startStream u))) := by
  obtain ⟨u, hu, huk⟩ := serveAll_loadKey k s
  refine ⟨u, huk, ?_⟩
  rw [schedule, serveAll_append hu, serveAll_cons (serve_wr (exec_ksa_of_key (huk.keylen_ne_zero hk)))]
  rfl

/-- Below 256, reducing modulo a length or modulo that length cut to 256 is the same. -/
theorem mod_min_256 {n L : Nat} (hn : n < 256) : n % min L 256 = n % L := by
  rcases Nat.le_total L 256 with hL | hL
  · rw [Nat.min_eq_left hL]
  · rw [Nat.min_eq_right hL, Nat.mod_eq_of_lt hn, Nat.mod_eq_of_lt (hn.trans_le hL)]

/-- The effective key of a state is the cyclic extension of the key it holds, beyond 256 bytes too (R103, R104). -/
theorem State.HoldsKey.getElem?_mod {s : State} {k : List Byte} (hs : s.HoldsKey k) (hk : k ≠ []) (n : Byte) :
    k[n.toNat % k.length]? = some (effectiveKey s.K s.KEYLEN n) := by
  obtain ⟨hlen, hentry⟩ := hs
  have hpos := List.length_pos_iff.2 hk
  have hmod : n.toNat % s.KEYLEN.toNat = n.toNat % k.length := by rw [hlen, mod_min_256 n.isLt]
  have hlt : n.toNat % s.KEYLEN.toNat < s.KEYLEN.toNat := Nat.mod_lt _ (by omega)
  have hidx : (BitVec.ofNat 8 (n.toNat % s.KEYLEN.toNat)).toNat = n.toNat % s.KEYLEN.toNat :=
    Nat.mod_eq_of_lt ((Nat.mod_le _ _).trans_lt n.isLt)
  rw [effectiveKey, ← hentry _ (hidx.symm ▸ hlt), hidx, hmod]

/-- Settles O48: the state that holds the key has the source's effective key, so KSA gives the source's permutation. -/
theorem keysOfAnyLengthScheduleAsSource : Obligations.KeysOfAnyLengthScheduleAsSource := by
  intro k s hk
  obtain ⟨u, huk, hrun⟩ := serveAll_schedule hk s
  have heff : ∀ n : Byte, (effectiveKey u.K u.KEYLEN n).toNat =
      (k.map BitVec.toNat).getD (n.toNat % (k.map BitVec.toNat).length) 0 := fun n => by
    rw [List.length_map, List.getD_eq_getElem?_getD, List.getElem?_map, huk.getElem?_mod hk n]
    rfl
  obtain ⟨P, hP, hagree⟩ := keySchedule_agrees (by simpa using hk) heff
  obtain ⟨hlen, hentry⟩ := huk
  refine ⟨_, P, hrun, hP, hagree, hlen, fun n hn => hentry n ?_⟩
  rw [hlen]
  exact lt_min hn n.isLt

/-- Settles O49: the two states hold keys with the same cyclic extension, which is all a KSA reads. -/
theorem periodicKeysScheduleAlike : Obligations.PeriodicKeysScheduleAlike := by
  intro k k' s s' hk hk' hcyclic
  obtain ⟨u, huk, hrun⟩ := serveAll_schedule hk s
  obtain ⟨u', huk', hrun'⟩ := serveAll_schedule hk' s'
  refine ⟨_, _, hrun, hrun', keySchedule_congr fun n => Option.some.inj ?_⟩
  calc some (effectiveKey u.K u.KEYLEN n)
    _ = k[n.toNat % k.length]? := (huk.getElem?_mod hk n).symm
    _ = k'[n.toNat % k'.length]? := hcyclic n.toNat n.isLt
    _ = some (effectiveKey u'.K u'.KEYLEN n) := huk'.getElem?_mod hk' n

end Sys2Proof.Machine
end

section
/-! CLRKEY and KEYB (R100, R101), and the stream that key loading leaves alone (R106). -/

namespace Sys2Proof.Machine

/-- Every word with a reserved bit 1 is illegal (R86). -/
theorem raisesIllegal_of_rsv {w : Word} (hrsv : w.extractLsb' 16 16 ≠ 0) : RaisesIllegal w :=
  (illegalWordsExactly w).2 ((illegalWordsExactly w).1.2 (.inl hrsv))

/-- With an opcode that takes no operand, every word but the command's own is illegal: a reserved bit or a data bit of it
is 1 (R86). -/
theorem raisesIllegal_of_ne_encode {i : Instr} (hi : i.opcode ∈ opcodesWithoutOperand) {w : Word}
    (hop : w.extractLsb' 0 8 = i.opcode) (hne : w ≠ encode i) : RaisesIllegal w := by
  obtain ⟨hcauses, hraises⟩ := illegalWordsExactly w
  have hmem : w.extractLsb' 0 8 ∈ opcodesWithoutOperand := hop.symm ▸ hi
  by_cases hrsv : w.extractLsb' 16 16 = 0
  · refine hraises (hcauses.2 (.inr (.inr ⟨hmem, fun hdata => hne ?_⟩)))
    have hidata : i.data = 0 := i.opcode_data.elim
      (fun hwith => absurd hi (not_mem_withoutOperand_of_mem_withOperand hwith)) And.right
    calc w
      _ = enc (w.extractLsb' 0 8) (w.extractLsb' 8 8) := eq_enc_of_rsv hrsv
      _ = encode i := by rw [hop, hdata, encode, hidata]
  · exact raisesIllegal_of_rsv hrsv

/-- Settles O10: KEYB is `appendKey`, in its two branches; of the words with its opcode the illegal ones have a reserved
bit 1. -/
theorem keybAppendsByte : Obligations.KeybAppendsByte := by
  refine ⟨fun b s hroom => ⟨complete (appendKey b s), rfl, ?_, fun n => ?_, ?_⟩, fun b s hfull => ?_, fun b => ?_,
    fun w _ hrsv => raisesIllegal_of_rsv hrsv⟩
  · rw [complete_KEYLEN, appendKey_KEYLEN, if_pos hroom]
    bv_omega
  · have hat : n = s.KEYLEN.setWidth 8 ↔ n.toNat = s.KEYLEN.toNat := by
      rw [← BitVec.toNat_inj, BitVec.toNat_setWidth, Nat.mod_eq_of_lt hroom]
    rw [complete_K, appendKey_K, if_pos hroom, Table.entry_put]
    simp only [hat]
  · rw [appendKey_eq]
    rfl
  · have hdiscard : appendKey b s = s := if_neg (Nat.not_lt.2 hfull)
    exact congrArg (fun t => Host.Outcome.next (complete t)) hdiscard
  · rw [append_eq_enc]
    exact decode_encode (.keyb b)

/-- From another key KEYB appends to that one, and leaves the same state but for `K` and `KEYLEN`. -/
theorem appendKey_of_set_key (b : Byte) (s : State) (K : Table) (n : BitVec 9) :
    ∃ K' n', appendKey b { s with K := K, KEYLEN := n } = { appendKey b s with K := K', KEYLEN := n' } :=
  ⟨_, _, by rw [appendKey_eq b s]; exact appendKey_eq b { s with K := K, KEYLEN := n }⟩

/-- No command but KSA reads `K` or `KEYLEN` to write another field: on another key it leaves the same state but for
these two. -/
theorem exec_of_set_key {i : Instr} {s t : State} (hi : i ≠ .ksa) (h : exec i s = .next t) (K : Table) (n : BitVec 9) :
    ∃ K' n', exec i { s with K := K, KEYLEN := n } = .next { t with K := K', KEYLEN := n' } := by
  rcases exec_cases h with ⟨rfl, rfl⟩ | ⟨rfl, rfl⟩ | ⟨rfl, rfl⟩ | ⟨rfl, rfl⟩ | ⟨b, rfl, rfl⟩ | ⟨rfl, -, -⟩ |
    ⟨rfl, -, -⟩ | ⟨rfl | ⟨d, rfl⟩, hphase, rfl⟩ | ⟨rfl, hphase, rfl⟩ | ⟨d, rfl, hphase, rfl⟩
  · exact ⟨K, n, rfl⟩
  · exact ⟨K, 0, rfl⟩
  · exact ⟨K, n, rfl⟩
  · exact ⟨K, 0, rfl⟩
  · obtain ⟨K', n', happend⟩ := appendKey_of_set_key b s K n
    exact ⟨K', n', congrArg (fun u => Host.Outcome.next (complete u)) happend⟩
  · exact absurd rfl hi
  · exact absurd rfl hi
  · exact ⟨K, n, exec_ks_of_unkeyed (s := { s with K := K, KEYLEN := n }) hphase⟩
  · exact ⟨K, n, exec_xor_of_unkeyed (s := { s with K := K, KEYLEN := n }) d hphase⟩
  · exact ⟨K, n, exec_ks_of_ready (s := { s with K := K, KEYLEN := n }) hphase⟩
  · exact ⟨K, n, exec_xor_of_ready (s := { s with K := K, KEYLEN := n }) d hphase⟩

/-- Settles O50: another key changes `K` and `KEYLEN` alone of what a command leaves, and the frame of CLRKEY and KEYB
holds the stream. -/
theorem keyLoadingLeavesStreamAlone : Obligations.KeyLoadingLeavesStreamAlone := by
  refine ⟨fun i s t K n hi h => ?_, fun i s t hi h => ?_⟩
  · obtain ⟨K', n', hu⟩ := exec_of_set_key hi h K n
    exact ⟨_, hu, rfl, rfl, rfl, rfl, rfl, rfl⟩
  · have hmem : i ∉ [Instr.reset, .ksa, .ks] := by rcases hi with rfl | ⟨b, rfl⟩ <;> simp
    have hxor : ∀ d, i ≠ .xor d := by rcases hi with rfl | ⟨b, rfl⟩ <;> simp
    have hphase : t.PHASE = s.PHASE := by rcases hi with rfl | ⟨b, rfl⟩ <;> simp [exec_PHASE h]
    obtain ⟨hS, hI, hJ, hDOUT, hCOUNT⟩ := exec_stream h hmem hxor
    exact ⟨hS, hI, hJ, hphase, hDOUT, hCOUNT⟩

/-- Settles O9: CLRKEY leaves `KEYLEN` 0, with which KSA raises; its one word is that of `encode`. -/
theorem clrkeyEmptiesKey : Obligations.ClrkeyEmptiesKey := by
  refine ⟨fun s => rfl, fun s t h => ?_, decode_encode .clrkey, fun w hop hne => ?_⟩
  · obtain rfl : complete { s with KEYLEN := 0 } = t := Host.Outcome.next.inj h
    exact exec_ksa_of_empty rfl
  · exact raisesIllegal_of_ne_encode (i := .clrkey) (by decide) hop hne

end Sys2Proof.Machine
end

section
/-! KSA (R120 to R123): the schedule of the loaded key is the source's, a permutation, a function of the loaded bytes
alone, and the same when issued again. -/

namespace Sys2Proof.Machine

theorem keylen_toNat_pos {len : BitVec 9} (h : len ≠ 0) : 0 < len.toNat := by
  bv_omega

/-- `K[0..KEYLEN-1]`, as a key of the source's (R103, R120). -/
def loadedKey (K : Table) (len : BitVec 9) : List Nat :=
  (List.range len.toNat).map fun n => (K.entry (BitVec.ofNat 8 n)).toNat

@[simp] theorem length_loadedKey (K : Table) (len : BitVec 9) : (loadedKey K len).length = len.toNat := by
  simp [loadedKey]

theorem loadedKey_ne_nil (K : Table) {len : BitVec 9} (hlen : len ≠ 0) : loadedKey K len ≠ [] :=
  List.ne_nil_of_length_pos ((length_loadedKey K len).symm ▸ keylen_toNat_pos hlen)

/-- The effective key is the cyclic extension of the loaded key (R103), for every `KEYLEN` but 0. -/
theorem effectiveKey_eq_getD_loadedKey (K : Table) {len : BitVec 9} (hlen : len ≠ 0) (n : Byte) :
    (effectiveKey K len n).toNat = (loadedKey K len).getD (n.toNat % (loadedKey K len).length) 0 := by
  have hlt : n.toNat % len.toNat < len.toNat := Nat.mod_lt _ (keylen_toNat_pos hlen)
  rw [length_loadedKey, loadedKey, List.getD_eq_getElem?_getD, List.getElem?_map, List.getElem?_range hlt]
  rfl

/-- Settles O11: a KSA with a key is `startStream`, whose schedule agrees with the source's; without one it raises; its
one word is that of `encode`. -/
theorem ksaSchedulesLoadedKey : Obligations.KsaSchedulesLoadedKey := by
  refine ⟨fun s hkey => ?_, fun s hempty => exec_ksa_of_empty hempty, decode_encode .ksa, fun w hop hne => ?_⟩
  · obtain ⟨P, hP, hagree⟩ := keySchedule_agrees (loadedKey_ne_nil s.K hkey) (effectiveKey_eq_getD_loadedKey s.K hkey)
    exact ⟨complete (startStream s), P, exec_ksa_of_key hkey, hP, hagree, rfl⟩
  · exact raisesIllegal_of_ne_encode (i := .ksa) (by decide) hop hne

/-- Settles O44: the schedule starts from the identity, so the permutation it leaves owes nothing to the `S` before. -/
theorem ksaLeavesPermutation : Obligations.KsaLeavesPermutation := fun s hkey =>
  ⟨complete (startStream s), exec_ksa_of_key hkey, keySchedule_isPermutation s.K s.KEYLEN⟩

/-- Settles O46: the schedule reads the key through the effective key alone, and that reads `K` below `KEYLEN` alone; the
other five fields are constants. -/
theorem ksaDependsOnKeyAlone : Obligations.KsaDependsOnKeyAlone := by
  intro s s' hkey hlen hentries
  have hkey' : s'.KEYLEN ≠ 0 := hlen ▸ hkey
  have hS : keySchedule s'.K s'.KEYLEN = keySchedule s.K s.KEYLEN := by
    rw [hlen]
    exact keySchedule_congr (effectiveKey_congr hkey hentries)
  -- The field lemmas close the constants; with `rfl` the kernel would compare the two schedules round by round.
  refine ⟨complete (startStream s), complete (startStream s'), exec_ksa_of_key hkey, exec_ksa_of_key hkey', hS,
    ?_, ?_, ?_, ?_, ?_⟩ <;> simp

/-- An error raised twice leaves what it leaves once (R201). -/
theorem raiseError_raiseError (e : CommandError) (s : State) : raiseError e (raiseError e s) = raiseError e s := by
  cases e <;> rfl

/-- A successful KSA reads `K` and `KEYLEN` alone, which it kept: the next one leaves its state again (R122). -/
theorem complete_startStream_twice (s : State) :
    complete (startStream (complete (startStream s))) = complete (startStream s) := rfl

/-- Settles O47: by whether there is a key; the first KSA keeps it, so the second goes the same way, to the same state. -/
theorem ksaCanBeIssuedAgain : Obligations.KsaCanBeIssuedAgain := by
  intro s t h
  have hK : t.K = s.K := exec_K h (by simp)
  have hlen : t.KEYLEN = s.KEYLEN := exec_KEYLEN h (by simp) (by simp)
  refine ⟨hK, hlen, ?_⟩
  by_cases hkey : s.KEYLEN = 0
  · obtain rfl : raiseError .INVALID_KEY s = t := Host.Outcome.next.inj ((exec_ksa_of_empty hkey).symm.trans h)
    rw [exec_ksa_of_empty (hlen.trans hkey), raiseError_raiseError]
  · obtain rfl : complete (startStream s) = t := Host.Outcome.next.inj ((exec_ksa_of_key hkey).symm.trans h)
    rw [exec_ksa_of_key (hlen ▸ hkey), complete_startStream_twice]

end Sys2Proof.Machine
end

section
/-! KS and XOR (R140 to R142, R148, R149): each is one PRGA step, whose byte goes to `DOUT` as it is or combined with the
data byte. -/

namespace Sys2Proof.Machine

/-- A PRGA step counts `I` modulo 256 and `COUNT` modulo 2^32, so `I` stays the low byte of `COUNT` (R143). -/
theorem emitByte_index_eq_count {s : State} (hs : s.I = s.COUNT.setWidth 8) (out : Byte → Byte) :
    (emitByte out s).I = (emitByte out s).COUNT.setWidth 8 := by
  rw [emitByte_I, emitByte_COUNT, hs]
  exact (BitVec.setWidth_add s.COUNT 1 (by decide)).symm

/-- Every command keeps `I` the low byte of `COUNT`: it keeps both, or sets both to 0, or adds one to both. -/
theorem exec_index_eq_count {i : Instr} {s t : State} (h : exec i s = .next t) (hs : s.I = s.COUNT.setWidth 8) :
    t.I = t.COUNT.setWidth 8 := by
  rcases exec_cases h with ⟨-, rfl⟩ | ⟨-, rfl⟩ | ⟨-, rfl⟩ | ⟨-, rfl⟩ | ⟨b, -, rfl⟩ | ⟨-, -, rfl⟩ | ⟨-, -, rfl⟩ |
    ⟨-, -, rfl⟩ | ⟨-, -, rfl⟩ | ⟨d, -, -, rfl⟩
  · exact hs
  · rfl
  · exact hs
  · exact hs
  · simpa using hs
  · exact hs
  · rfl
  · exact hs
  · exact emitByte_index_eq_count hs (fun k => k)
  · exact emitByte_index_eq_count hs (fun k => d ^^^ k)

/-- Settles O36, by the packaged induction step: outside the commands only the reset input writes `I` and `COUNT`, with 0. -/
theorem stepKeepsIndexWithCount : Obligations.StepKeepsIndexWithCount := fun _ _ hs h =>
  step_keeps (P := fun s => s.I = s.COUNT.setWidth 8) (fun _ _ _ => exec_index_eq_count) (fun _ hs => hs)
    (fun _ _ hs => hs) (fun _ hs => hs) (fun _ => rfl) (fun _ _ hs => hs) hs h

/-- Whatever the command makes of the keystream byte, it takes one PRGA step (R141, R142). -/
theorem prgaResult_emitByte (out : Byte → Byte) (s : State) :
    PrgaResult s (complete (emitByte out s)) (prgaStep s).2 :=
  prgaResult_of_eq rfl rfl rfl

/-- Settles O14: in `READY` KS is `emitByte` of the keystream byte itself, else it raises; its one word is that of
`encode`. -/
theorem ksGivesKeystreamByte : Obligations.KsGivesKeystreamByte := by
  refine ⟨fun s hphase => ⟨complete (emitByte (fun k => k) s), exec_ks_of_ready hphase, prgaResult_emitByte _ s,
    BitVec.toNat_add s.COUNT 1, rfl⟩, fun s hphase => exec_ks_of_unkeyed hphase, decode_encode .ks, fun w hop hne => ?_⟩
  exact raisesIllegal_of_ne_encode (i := .ks) (by decide) hop hne

/-- Settles O15: in `READY` XOR is `emitByte` of the combined byte, else it raises; of the words with its opcode the
illegal ones have a reserved bit 1. -/
theorem xorGivesCombinedByte : Obligations.XorGivesCombinedByte := by
  refine ⟨fun d s hphase => ⟨complete (emitByte (fun k => d ^^^ k) s), (prgaStep s).2, exec_xor_of_ready d hphase,
    prgaResult_emitByte _ s, rfl, BitVec.toNat_add s.COUNT 1, rfl⟩, fun d s hphase => exec_xor_of_unkeyed d hphase,
    fun d => ?_, fun w _ hrsv => raisesIllegal_of_rsv hrsv⟩
  rw [append_eq_enc]
  exact decode_encode (.xor d)

/-- Settles O17: both commands take the same keystream byte `k`, and `(d ^ k) ^ k = d`. -/
theorem xorIsSelfInverse : Obligations.XorIsSelfInverse := by
  intro d s t hphase h
  obtain rfl : complete (emitByte (fun k => d ^^^ k) s) = t :=
    Host.Outcome.next.inj ((exec_xor_of_ready d hphase).symm.trans h)
  have hback : d ^^^ (prgaStep s).2 ^^^ (prgaStep s).2 = d := xor_cancel_right d _
  refine ⟨_, exec_xor_of_ready _ hphase, hback, ?_⟩
  exact congrArg (fun b => { complete (emitByte (fun k => d ^^^ k) s) with DOUT := b }) hback

/-- Settles O45: every command keeps R22, these two by swapping two entries of `S` (`exec_isPermutation`). -/
theorem prgaKeepsPermutation : Obligations.PrgaKeepsPermutation := fun _ _ _ _ h hs => exec_isPermutation h hs

/-- Settles O16: combined with 0 the keystream byte is itself, and both check the phase alike. -/
theorem ksActsAsXorZero : Obligations.KsActsAsXorZero := by
  refine ⟨fun s => ?_, by decide⟩
  cases hphase : s.PHASE with
  | UNKEYED => rw [exec_ks_of_unkeyed hphase, exec_xor_of_unkeyed 0x00 hphase]
  | READY =>
    have hzero : (fun k : Byte => 0x00 ^^^ k) = fun k => k := funext fun _ => BitVec.zero_xor
    rw [exec_ks_of_ready hphase, exec_xor_of_ready 0x00 hphase, hzero]

end Sys2Proof.Machine
end

section
/-! The stream over lists of accesses (R143): an access without KSA and RESET uses no keystream byte and leaves the stream
alone, or is KS or XOR and uses the next one. -/

namespace Sys2Proof.Machine

/-- Two states at the same position of the same stream. -/
structure State.SameStream (s t : State) : Prop where
  S : t.S = s.S
  I : t.I = s.I
  J : t.J = s.J
  COUNT : t.COUNT = s.COUNT
  PHASE : t.PHASE = s.PHASE

/-- From `s` to the next position of its stream: one PRGA step, and one more byte counted (R140, R141). -/
structure State.StreamStep (s t : State) : Prop where
  S : t.S = (prgaStep s).1.S
  I : t.I = s.I + 1
  J : t.J = (prgaStep s).1.J
  COUNT : t.COUNT = s.COUNT + 1
  PHASE : t.PHASE = s.PHASE

theorem usedByte_of_usesByte_false {i : Instr} (h : usesByte i = false) (dout : Byte) : usedByte i dout = none := by
  cases i with
  | ks | xor d => cases h
  | nop | reset | clrerr | clrkey | keyb b | ksa => rfl

theorem exec_sameStream {i : Instr} {s t : State} (h : exec i s = .next t) (hksa : i ≠ .ksa) (hreset : i ≠ .reset)
    (huses : usesByte i = false) : s.SameStream t := by
  have hmem : i ∉ [Instr.reset, .ksa, .ks] := by
    have hks : i ≠ .ks := by rintro rfl; cases huses
    simp [hksa, hreset, hks]
  obtain ⟨hS, hI, hJ, -, hCOUNT⟩ := exec_stream h hmem (by rintro d rfl; cases huses)
  exact ⟨hS, hI, hJ, hCOUNT, by rw [exec_PHASE h, if_neg hreset, if_neg hksa]⟩

/-- In `READY` KS and XOR take one step of the stream, and the byte they use is that of the step. -/
theorem exec_streamStep {i : Instr} {s t : State} (h : exec i s = .next t) (hphase : s.PHASE = .READY)
    (huses : usesByte i = true) : s.StreamStep t ∧ usedByte i t.DOUT = some (prgaStep s).2 := by
  cases i with
  | ks =>
    obtain rfl := Host.Outcome.next.inj ((exec_ks_of_ready hphase).symm.trans h)
    exact ⟨⟨rfl, rfl, rfl, rfl, rfl⟩, rfl⟩
  | xor d =>
    obtain rfl := Host.Outcome.next.inj ((exec_xor_of_ready d hphase).symm.trans h)
    exact ⟨⟨rfl, rfl, rfl, rfl, rfl⟩, congrArg some (xor_cancel_left d _)⟩
  | nop | reset | clrerr | clrkey | keyb b | ksa => cases huses

/-- The keystream byte an access used, from the state it left. -/
def Access.byteUsed (a : Access) (t : State) : Option Byte := (Input.access a).command?.bind fun i => usedByte i t.DOUT

theorem usedBytes_cons {a : Access} {s t : State} (h : serve a s = .next t) (l : List Access) :
    usedBytes (a :: l) s = (a.byteUsed t).toList ++ usedBytes l t := by
  rw [usedBytes, h]
  rfl

/-- In `READY` an access without KSA and RESET leaves the stream alone, or takes one step of it. -/
theorem serve_stream_cases {a : Access} {s t : State} (h : serve a s = .next t) (hphase : s.PHASE = .READY)
    (hksa : (Input.access a).command? ≠ some .ksa) (hreset : (Input.access a).command? ≠ some .reset) :
    (a.takesByte = false ∧ s.SameStream t ∧ a.byteUsed t = none) ∨
    (a.takesByte = true ∧ s.StreamStep t ∧ a.byteUsed t = some (prgaStep s).2) := by
  unfold Access.takesByte Access.byteUsed
  rcases serve_command_cases h with ⟨i, u, hi, hu, rfl⟩ | ⟨hnone, hways⟩
  · rw [hi] at hksa hreset ⊢
    cases huses : usesByte i with
    | false =>
      have hsame := exec_sameStream hu (fun h => hksa (congrArg some h)) (fun h => hreset (congrArg some h)) huses
      exact .inl ⟨huses, ⟨hsame.S, hsame.I, hsame.J, hsame.COUNT, hsame.PHASE⟩, usedByte_of_usesByte_false huses _⟩
    | true =>
      obtain ⟨hstep, hbyte⟩ := exec_streamStep hu hphase huses
      exact .inr ⟨huses, ⟨hstep.S, hstep.I, hstep.J, hstep.COUNT, hstep.PHASE⟩, hbyte⟩
  · rw [hnone]
    refine .inl ⟨rfl, ?_, rfl⟩
    rcases hways with ⟨r, rfl⟩ | ⟨-, rfl⟩ | rfl
    · exact ⟨rfl, rfl, rfl, rfl, rfl⟩
    · exact ⟨rfl, rfl, rfl, rfl, rfl⟩
    · exact ⟨rfl, rfl, rfl, rfl, rfl⟩

/-- What a list of accesses without KSA and RESET does to a stream in `READY`, from any position of it: as many steps as
there are KS and XOR commands, using the source's next keystream bytes. -/
theorem serveAll_stream (l : List Access) {s : State} {P : Nat → Nat} (hphase : s.PHASE = .READY) (hP : s.S.Agrees P)
    (hl : ∀ a ∈ l, (Input.access a).command? ≠ some .ksa ∧ (Input.access a).command? ≠ some .reset) :
    ∃ u, serveAll l s = .next u ∧ u.PHASE = .READY ∧
      u.I.toNat = (s.I.toNat + l.countP Access.takesByte) % 256 ∧
      u.COUNT.toNat = (s.COUNT.toNat + l.countP Access.takesByte) % 2 ^ 32 ∧
      (usedBytes l s).map BitVec.toNat =
        Source.keystreamFrom P s.I.toNat s.J.toNat (l.countP Access.takesByte) := by
  induction l generalizing s P with
  | nil => exact ⟨s, rfl, hphase, (Nat.mod_eq_of_lt s.I.isLt).symm, (Nat.mod_eq_of_lt s.COUNT.isLt).symm, rfl⟩
  | cons a l ih =>
    obtain ⟨⟨hksa, hreset⟩, hrest⟩ := List.forall_mem_cons.1 hl
    obtain ⟨t, ht⟩ := serve_next a s
    rw [serveAll_cons ht, usedBytes_cons ht]
    rcases serve_stream_cases ht hphase hksa hreset with ⟨htakes, hsame, hbyte⟩ | ⟨htakes, hstep, hbyte⟩
    · rw [List.countP_cons_of_neg (by simp [htakes]), hbyte, ← hsame.I, ← hsame.J, ← hsame.COUNT]
      exact ih (hsame.PHASE.trans hphase) (hsame.S ▸ hP) hrest
    · obtain ⟨P', hP', hkeystream⟩ := keystreamFrom_succ hP (l.countP Access.takesByte)
      obtain ⟨u, hu, huphase, hI, hCOUNT, hbytes⟩ := ih (hstep.PHASE.trans hphase) (hstep.S ▸ hP') hrest
      rw [List.countP_cons_of_pos htakes, hkeystream, hbyte]
      refine ⟨u, hu, huphase, ?_, ?_, ?_⟩
      · rw [hI, hstep.I]
        bv_omega
      · rw [hCOUNT, hstep.COUNT]
        bv_omega
      · rw [Option.toList_some, List.singleton_append, List.map_cons, hbytes, hstep.I, hstep.J]
        rfl

/-- Settles O51: the general statement at the start of a stream, where the position is the number of steps. -/
theorem streamPositionFollowsSource : Obligations.StreamPositionFollowsSource := by
  intro l s hphase hI hJ hCOUNT hl
  obtain ⟨u, hu, huphase, huI, huCOUNT, hbytes⟩ := serveAll_stream l hphase s.S.agrees_toFun hl
  refine ⟨u, hu, huphase, by simpa [hI] using huI, by simpa [hCOUNT] using huCOUNT, ?_⟩
  rw [hI, hJ] at hbytes
  exact hbytes

end Sys2Proof.Machine
end

section
/-! The pseudo-instructions on the stream (R90): KEYSTREAM, XORSTREAM and TRANSFORM beside the source's `transform`. -/

namespace Sys2Proof.Source

@[simp] theorem length_keystreamFrom (S : Nat → Nat) (i j n : Nat) : (keystreamFrom S i j n).length = n := by
  induction n generalizing S i j with
  | zero => rfl
  | succ n ih => rw [keystreamFrom, List.length_cons, ih]

/-- Combined twice with a keystream at least as long, data is itself. -/
theorem zipWith_xor_zipWith_xor {data ks : List Nat} (h : data.length ≤ ks.length) :
    List.zipWith (fun d k => d ^^^ k) (List.zipWith (fun d k => d ^^^ k) data ks) ks = data := by
  induction data generalizing ks with
  | nil => rfl
  | cons d data ih =>
    cases ks with
    | nil => simp at h
    | cons k ks =>
      rw [List.zipWith_cons_cons, List.zipWith_cons_cons, xor_cancel_right, ih (Nat.le_of_succ_le_succ h)]

/-- With a key that schedules to `S`, the source combines the data with the keystream of `S` (R142, R144). -/
theorem transform_of_keySchedule {key : List Nat} {S : Nat → Nat} (h : keySchedule key = .ok S) (data : List Nat) :
    transform key data = .ok (List.zipWith (fun d k => d ^^^ k) data (generateKeystream S data.length)) := by
  rw [transform, h]
  rfl

theorem keySchedule_of_transform {key data c : List Nat} (h : transform key data = .ok c) :
    ∃ S, keySchedule key = .ok S := by
  cases hkey : keySchedule key with
  | ok S => exact ⟨S, rfl⟩
  | error e => simp [transform, hkey, Except.map] at h

theorem length_of_transform {key data c : List Nat} (h : transform key data = .ok c) : c.length = data.length := by
  obtain ⟨S, hS⟩ := keySchedule_of_transform h
  obtain rfl := Except.ok.inj ((transform_of_keySchedule hS data).symm.trans h)
  simp [generateKeystream]

/-- The source's transform undoes itself (R145). -/
theorem transform_transform {key data c : List Nat} (h : transform key data = .ok c) : transform key c = .ok data := by
  have hlen := length_of_transform h
  obtain ⟨S, hS⟩ := keySchedule_of_transform h
  obtain rfl := Except.ok.inj ((transform_of_keySchedule hS data).symm.trans h)
  rw [transform_of_keySchedule hS, hlen, zipWith_xor_zipWith_xor (by simp [generateKeystream])]

end Sys2Proof.Source

namespace Sys2Proof.Machine

/-- The state after `WR CMD` of a command that left `t`, and a read of `DOUT`. -/
def afterByte (t : State) : State :=
  respond { rdata := t.DOUT.setWidth 32, err := false } (respond { rdata := 0, err := false } t)

theorem serveAll_wr_rd {i : Instr} {s t : State} (h : exec i s = .next t) (l : List Access) :
    serveAll (wr i :: rd .DOUT :: l) s = serveAll l (afterByte t) := by
  rw [serveAll_cons (serve_wr h), serveAll_cons (serve_rd .DOUT _)]
  rfl

/-- The host keeps, of `WR CMD` and `RD DOUT`, the byte read (R90). -/
theorem outputBytes_wr_rd (i : Instr) (l : List Access) (r : Response) (b : Byte) (rs : List Response) :
    outputBytes (wr i :: rd .DOUT :: l) (r :: { rdata := b.setWidth 32, err := false } :: rs) = b :: outputBytes l rs := by
  have hne : wr i ≠ rd .DOUT := by simp [wr, rd, writeCmd]
  rw [outputBytes, if_neg hne, outputBytes, if_pos rfl]
  simp

/-- KEYSTREAM in `READY`, from any count: each KS succeeds (R147). -/
theorem serveAll_keystream (n : Nat) {s : State} (hphase : s.PHASE = .READY) :
    ∃ u, serveAll (keystream n) s = .next u ∧ u.PHASE = .READY ∧ u.COUNT.toNat = (s.COUNT.toNat + n) % 2 ^ 32 ∧
      u.LASTRES = (if n = 0 then s.LASTRES else 0) ∧ u.E_NOTKEYED = s.E_NOTKEYED := by
  induction n generalizing s with
  | zero => exact ⟨s, rfl, hphase, (Nat.mod_eq_of_lt s.COUNT.isLt).symm, rfl, rfl⟩
  | succ n ih =>
    obtain ⟨u, hu, huphase, hCOUNT, hLASTRES, hflag⟩ := ih (s := afterByte (complete (emitByte (fun k => k) s))) hphase
    refine ⟨u, (serveAll_wr_rd (exec_ks_of_ready hphase) _).trans hu, huphase, ?_, ?_, hflag⟩
    · have hone : (afterByte (complete (emitByte (fun k => k) s))).COUNT = s.COUNT + 1 := rfl
      rw [hCOUNT, hone]
      bv_omega
    · simpa [afterByte] using hLASTRES

/-- Settles O52: the induction over the KS commands, which knows the result code from the first one on. -/
theorem keystreamIsUnbounded : Obligations.KeystreamIsUnbounded := by
  intro n s hphase
  obtain ⟨u, hu, huphase, hCOUNT, hLASTRES, hflag⟩ := serveAll_keystream n hphase
  exact ⟨u, hu, huphase, hCOUNT, fun hn => hLASTRES.trans (if_neg hn), hflag⟩

/-- XORSTREAM in `READY`, from any position of the stream: the host reads the data combined with the source's next
keystream bytes (R142, R143). -/
theorem serveAll_xorStream (d : List Byte) {s : State} {P : Nat → Nat} (hphase : s.PHASE = .READY)
    (hP : s.S.Agrees P) :
    ∃ u rs, serveAll (xorStream d) s = .next u ∧ u.responses = s.responses ++ rs ∧
      (outputBytes (xorStream d) rs).map BitVec.toNat =
        List.zipWith (fun d k => d ^^^ k) (d.map BitVec.toNat)
          (Source.keystreamFrom P s.I.toNat s.J.toNat d.length) := by
  induction d generalizing s P with
  | nil => exact ⟨s, [], rfl, (List.append_nil _).symm, rfl⟩
  | cons b d ih =>
    obtain ⟨P', hP', hkeystream⟩ := keystreamFrom_succ hP d.length
    obtain ⟨u, rs, hu, hresponses, hbytes⟩ :=
      ih (s := afterByte (complete (emitByte (fun k => b ^^^ k) s))) hphase hP'
    refine ⟨u, { rdata := 0, err := false } :: { rdata := (b ^^^ (prgaStep s).2).setWidth 32, err := false } :: rs,
      (serveAll_wr_rd (exec_xor_of_ready b hphase) _).trans hu, ?_, ?_⟩
    · simp [hresponses, afterByte]
    · rw [xorStream, outputBytes_wr_rd, List.map_cons, hbytes, List.length_cons, hkeystream, List.map_cons,
        List.zipWith_cons_cons, BitVec.toNat_xor]
      rfl

/-- The `LASTRES` field of the word that a read of `STATUS` gives (R38). -/
@[simp] theorem lastresField_statusWord (s : State) : lastresField (statusWord s) = s.LASTRES := by
  obtain ⟨hfields, -⟩ := statusWordFields
  obtain ⟨-, -, hlastres, -⟩ := hfields s
  exact hlastres

/-- The state in which TRANSFORM's host has read `STATUS`, when SCHEDULE left `t`. -/
def afterStatus (t : State) : State := respond { rdata := statusWord t, err := false } t

theorem serveAll_transformOpening {k : List Byte} {s t : State} (h : serveAll (schedule k) s = .next t) :
    serveAll (transformOpening k) s = .next (afterStatus t) := by
  rw [transformOpening, serveAll_append h, serveAll_cons (serve_rd .STATUS t)]
  rfl

/-- The code the host of TRANSFORM looks at is that of SCHEDULE (R90; log 13). -/
@[simp] theorem lastresField_afterStatus (t : State) :
    ((afterStatus t).responses.getLast?.map fun r => lastresField r.rdata) = some t.LASTRES := by
  simp [afterStatus]

/-- The host of TRANSFORM stops when SCHEDULE left the code of `INVALID_KEY` (R90). -/
theorem transform_of_failed {k : List Byte} {s t : State} (h : serveAll (schedule k) s = .next t) (ht : t.LASTRES = 1)
    (d : List Byte) : transform k d s = .next (afterStatus t, .error .emptyKey) := by
  have hcode : some t.LASTRES = some Result.INVALID_KEY.code := congrArg some ht
  simp only [transform, serveAll_transformOpening h, lastresField_afterStatus, if_pos hcode]

/-- After a successful KSA the host goes on with XORSTREAM, and gives the bytes it reads there (R90). -/
theorem transform_of_scheduled {k d : List Byte} {s t u : State} {rs : List Response}
    (h : serveAll (schedule k) s = .next t) (ht : t.LASTRES = 0)
    (hu : serveAll (xorStream d) (afterStatus t) = .next u) (hrs : u.responses = (afterStatus t).responses ++ rs) :
    transform k d s = .next (u, .ok (outputBytes (xorStream d) rs)) := by
  have hcode : some t.LASTRES ≠ some Result.INVALID_KEY.code := by rw [ht]; decide
  simp only [transform, serveAll_transformOpening h, lastresField_afterStatus, if_neg hcode, hu, hrs, List.drop_left]

/-- SCHEDULE of the empty key ends with the code of `INVALID_KEY` (R90, R203). -/
theorem serveAll_schedule_nil (s : State) : ∃ t, serveAll (schedule []) s = .next t ∧ t.LASTRES = 1 := by
  obtain ⟨u, hu, hlen, -⟩ := serveAll_loadKey [] s
  have hempty : u.KEYLEN = 0 := BitVec.eq_of_toNat_eq hlen
  refine ⟨respond { rdata := 0, err := false } (raiseError .INVALID_KEY u), ?_, rfl⟩
  rw [schedule, serveAll_append hu, serveAll_cons (serve_wr (exec_ksa_of_empty hempty))]
  rfl

theorem transform_of_nil (d : List Byte) (s : State) :
    ∃ t, transform [] d s = .next (t, .error .emptyKey) ∧ t.LASTRES = 1 := by
  obtain ⟨t, ht, hres⟩ := serveAll_schedule_nil s
  exact ⟨afterStatus t, transform_of_failed ht hres d, hres⟩

/-- A state at the start of a stream, as a successful KSA leaves it but for `S` and `DOUT` (R120). -/
structure State.AtStreamStart (t : State) : Prop where
  PHASE : t.PHASE = .READY
  I : t.I = 0
  J : t.J = 0
  COUNT : t.COUNT = 0
  LASTRES : t.LASTRES = 0

/-- SCHEDULE of a non-empty key leaves the start of the stream of the source's permutation (R104, R120). -/
theorem serveAll_schedule_start {k : List Byte} (hk : k ≠ []) (s : State) :
    ∃ t P, serveAll (schedule k) s = .next t ∧ t.AtStreamStart ∧ Source.keySchedule (k.map BitVec.toNat) = .ok P ∧
      t.S.Agrees P := by
  obtain ⟨u, -, hrun⟩ := serveAll_schedule hk s
  obtain ⟨t, P, ht, hP, hagree, -⟩ := keysOfAnyLengthScheduleAsSource k s hk
  obtain rfl := Host.Outcome.next.inj (hrun.symm.trans ht)
  exact ⟨_, P, hrun, ⟨rfl, rfl, rfl, rfl, rfl⟩, hP, hagree⟩

/-- TRANSFORM with a non-empty key gives the bytes of the source's `transform` (R144). -/
theorem transform_of_key {k : List Byte} (hk : k ≠ []) (d : List Byte) (s : State) :
    ∃ u c, transform k d s = .next (u, .ok c) ∧
      Source.transform (k.map BitVec.toNat) (d.map BitVec.toNat) = .ok (c.map BitVec.toNat) := by
  obtain ⟨t, P, ht, hstart, hP, hagree⟩ := serveAll_schedule_start hk s
  obtain ⟨u, rs, hu, hrs, hbytes⟩ := serveAll_xorStream d (s := afterStatus t) hstart.PHASE hagree
  have hI : (afterStatus t).I = 0 := hstart.I
  have hJ : (afterStatus t).J = 0 := hstart.J
  refine ⟨u, _, transform_of_scheduled ht hstart.LASTRES hu hrs, ?_⟩
  rw [Source.transform_of_keySchedule hP, hbytes, hI, hJ, List.length_map]
  rfl

/-- Settles O53: by whether the key is empty. -/
theorem transformComputesSourceTransform : Obligations.TransformComputesSourceTransform := by
  intro k d s
  by_cases hk : k = []
  · subst hk
    obtain ⟨t, ht, hres⟩ := transform_of_nil d s
    exact ⟨t, _, ht, rfl, fun _ => ⟨rfl, hres⟩⟩
  · obtain ⟨u, c, hu, hc⟩ := transform_of_key hk d s
    exact ⟨u, .ok c, hu, hc.symm, fun h => absurd h hk⟩

/-- Settles O54: both transforms are the source's, which undoes itself, and bytes are equal when their numbers are. -/
theorem transformRoundTrip : Obligations.TransformRoundTrip := by
  intro k d s s' hk
  obtain ⟨t, c, ht, hc⟩ := transform_of_key hk d s
  obtain ⟨t', d', ht', hd'⟩ := transform_of_key hk c s'
  have hnumbers : d'.map BitVec.toNat = d.map BitVec.toNat :=
    Except.ok.inj (hd'.symm.trans (Source.transform_transform hc))
  obtain rfl : d' = d := List.map_injective_iff.2 BitVec.toNat_injective hnumbers
  exact ⟨t, t', c, ht, ht'⟩

/-- Settles O55: the output is the source's, which has the length of the data; with no data TRANSFORM ends where its host
has read `STATUS`. -/
theorem transformKeepsLength : Obligations.TransformKeepsLength := by
  refine ⟨fun k d c s t h => ?_, fun k s hk => ?_⟩
  · by_cases hk : k = []
    · subst hk
      obtain ⟨t', ht', -⟩ := transform_of_nil d s
      cases ht'.symm.trans h
    · obtain ⟨u, c', hu, hc'⟩ := transform_of_key hk d s
      cases hu.symm.trans h
      simpa using Source.length_of_transform hc'
  · obtain ⟨t, P, ht, hstart, -, -⟩ := serveAll_schedule_start hk s
    exact ⟨afterStatus t, t, transform_of_scheduled ht hstart.LASTRES rfl (List.append_nil _).symm, ht, rfl,
      hstart.COUNT⟩

end Sys2Proof.Machine
end

section
/-! NOP, RESET and CLRERR (R170 to R172): the state each leaves, and the one word each has. -/

namespace Sys2Proof.Machine

/-- A command without an operand has one word: it is read back, and every other word with its opcode is illegal (R84,
R86). -/
theorem only_word_of_withoutOperand {i : Instr} (hi : i.opcode ∈ opcodesWithoutOperand) :
    decode (encode i) = .ok i ∧ ∀ w : Word, w.extractLsb' 0 8 = i.opcode → w ≠ encode i → RaisesIllegal w :=
  ⟨decode_encode i, fun _ hop hne => raisesIllegal_of_ne_encode hi hop hne⟩

/-- RESET leaves `STATUS` as the reset input does (R46, R171): every field it shows is that of the reset state. -/
theorem statusWord_softReset (s : State) : statusWord (softReset s) = 0 := by
  obtain ⟨-, hreset, -⟩ := statusWordFields
  calc statusWord (softReset s)
    _ = statusWord State.reset := rfl
    _ = 0 := hreset

/-- Settles O6: NOP is `complete`, which writes `LASTRES` alone. -/
theorem nopWritesOnlyLastres : Obligations.NopWritesOnlyLastres :=
  ⟨fun _ => rfl, only_word_of_withoutOperand (i := .nop) (by decide)⟩

/-- Settles O7: RESET is `softReset`, whose writes are those of R171, and which has written `LASTRES` already. -/
theorem resetCommandResult : Obligations.ResetCommandResult :=
  ⟨fun s => ⟨softReset s, rfl, Table.entry_identity, statusWord_softReset s, rfl⟩,
    only_word_of_withoutOperand (i := .reset) (by decide)⟩

/-- Settles O8: CLRERR is `clearFlags`, completed. -/
theorem clrerrClearsFlagsOnly : Obligations.ClrerrClearsFlagsOnly :=
  ⟨fun _ => rfl, only_word_of_withoutOperand (i := .clrerr) (by decide)⟩

end Sys2Proof.Machine
end

section
/-! The errors (R200 to R208): a command completes or raises one error, an access sets one flag at most, and no run stops. -/

namespace Sys2Proof.Machine

/-! ### What a command raises, and how many flags an access sets -/

/-- How many of the four sticky flags (R30) are 0 in `s` and 1 in `t`. -/
def State.flagsRaised (s t : State) : Nat :=
  (!s.E_INVKEY && t.E_INVKEY).toNat + (!s.E_NOTKEYED && t.E_NOTKEYED).toNat + (!s.E_ILLCMD && t.E_ILLCMD).toNat +
    (!s.E_BUS && t.E_BUS).toNat

/-- Raising an error sets the one flag of that error (R201). -/
theorem flagsRaised_raiseError_le (e : CommandError) (s : State) : s.flagsRaised (raiseError e s) ≤ 1 := by
  cases e <;> simp [State.flagsRaised, Bool.toNat_le]

/-- A command completes and sets no flag, or it is a KSA with the empty key (R203), or KS or XOR in `UNKEYED` (R204), and
raises that error. -/
theorem exec_completes_or_raises {i : Instr} {s t : State} (h : exec i s = .next t) :
    (t.LASTRES = 0 ∧ s.flagsRaised t = 0) ∨
    (i = .ksa ∧ s.KEYLEN = 0 ∧ t = raiseError .INVALID_KEY s) ∨
    ((i = .ks ∨ ∃ d, i = .xor d) ∧ s.PHASE = .UNKEYED ∧ t = raiseError .NOT_KEYED s) := by
  rcases exec_cases h with ⟨-, rfl⟩ | ⟨-, rfl⟩ | ⟨-, rfl⟩ | ⟨-, rfl⟩ | ⟨b, -, rfl⟩ | hempty | ⟨-, -, rfl⟩ | hunkeyed |
    ⟨-, -, rfl⟩ | ⟨d, -, -, rfl⟩
  any_goals exact .inl ⟨rfl, by simp [State.flagsRaised]⟩
  · exact .inr (.inl hempty)
  · exact .inr (.inr hunkeyed)

/-- Settles O12: the empty key is the check of KSA, and no other way out of a command leaves the code 1. -/
theorem ksaEmptyKeyRaisesInvalidKey : Obligations.KsaEmptyKeyRaisesInvalidKey := by
  refine ⟨fun s hkey => exec_ksa_of_empty hkey, fun i s t h hcode => ?_⟩
  rcases exec_completes_or_raises h with ⟨hok, -⟩ | ⟨hksa, hkey, -⟩ | ⟨-, -, rfl⟩
  · simp [hok] at hcode
  · exact ⟨hksa, hkey⟩
  · simp at hcode

/-- Settles O13: the phase is the check of KS and XOR, and no other way out of a command leaves the code 2. -/
theorem unkeyedStreamRaisesNotKeyed : Obligations.UnkeyedStreamRaisesNotKeyed := by
  refine ⟨fun s hphase => exec_ks_of_unkeyed hphase, fun d s hphase => exec_xor_of_unkeyed d hphase,
    fun i s t h hcode => ?_⟩
  rcases exec_completes_or_raises h with ⟨hok, -⟩ | ⟨-, -, rfl⟩ | ⟨hstream, hphase, -⟩
  · simp [hok] at hcode
  · simp at hcode
  · exact ⟨hstream, hphase⟩

/-- Settles O40: an access raises at most one error, or it is refused and sets `E_BUS`; a response sets no flag. -/
theorem oneErrorAtMost : Obligations.OneErrorAtMost := by
  intro a s t h
  change s.flagsRaised t ≤ 1
  rcases serve_command_cases h with ⟨i, u, -, hu, rfl⟩ | ⟨-, ⟨r, rfl⟩ | ⟨-, rfl⟩ | rfl⟩
  · change s.flagsRaised u ≤ 1
    rcases exec_completes_or_raises hu with ⟨-, hnone⟩ | ⟨-, -, rfl⟩ | ⟨-, -, rfl⟩
    · simp [hnone]
    · exact flagsRaised_raiseError_le .INVALID_KEY s
    · exact flagsRaised_raiseError_le .NOT_KEYED s
  · simp [State.flagsRaised]
  · simp [State.flagsRaised, Bool.toNat_le]
  · exact flagsRaised_raiseError_le .ILLEGAL_CMD s

/-- Executing a word gives no response: that is the part of the access (R56). -/
theorem executeWord_responses {w : Word} {s t : State} (h : executeWord w s = .next t) : t.responses = s.responses := by
  rcases executeWord_cases h with ⟨i, -, hi⟩ | ⟨e, -, rfl⟩
  · obtain ⟨-, hresponses, -⟩ := exec_bus hi
    exact hresponses
  · simp

/-- Settles O18: each error is its record update (`raiseError_eq`), and a write of `CMD` is acknowledged whatever its word
did. -/
theorem raisingErrorsExactly : Obligations.RaisingErrorsExactly := by
  refine ⟨raiseError_eq .INVALID_KEY, raiseError_eq .NOT_KEYED, raiseError_eq .ILLEGAL_CMD, fun w s => ?_⟩
  obtain ⟨u, hu⟩ := executeWord_next w s
  refine ⟨respond { rdata := 0, err := false } u, ?_, ?_⟩
  · exact (serve_writeCmd w s).trans (congrArg acknowledge hu)
  · rw [respond_responses, executeWord_responses hu]

/-! ### Runs -/

/-- With nothing pending a step answers the same state (R218). -/
theorem step_of_idle {s : State} (h : s.pending = []) : step s = .next s := by
  simp [step, serveNext, h]

/-- Settles O26, by induction on the number of steps. -/
theorem idleEngineHoldsState : Obligations.IdleEngineHoldsState := by
  intro n s hidle
  induction n with
  | zero => rfl
  | succ n ih => exact (run_succ (step_of_idle hidle)).trans ih

/-- A run of any length answers a next state, as each of its steps does (R200). -/
theorem run_next (n : Nat) (s : State) : ∃ t, Host.Core.run Sys2Proof.core n s = .next t := by
  induction n generalizing s with
  | zero => exact ⟨s, rfl⟩
  | succ n ih =>
    obtain ⟨u, hu⟩ := step_next s
    obtain ⟨t, ht⟩ := ih u
    exact ⟨t, (run_succ hu).trans ht⟩

/-- Settles O27: neither a command (`exec_next`) nor a run (`run_next`) has an outcome that stops the engine. -/
theorem nothingStopsTheEngine : Obligations.NothingStopsTheEngine := ⟨exec_next, run_next⟩

end Sys2Proof.Machine
end

section
/-! The reset input beside an access in flight and beside the RESET command (R231, R232), and what flags that are all 0 at
the end of a batch tell of it (R240). -/

namespace Sys2Proof.Machine

/-- Settles O31: with the access in flight or without it, the reset leaves `hardReset` of one state
(`serveInput_of_isReset`), and a reset input gives no response (O29). -/
theorem resetAbandonsAccessInFlight : Obligations.ResetAbandonsAccessInFlight := by
  intro a s rest hp
  constructor
  · calc step s
      _ = serveInput (.resetDuring a) { s with pending := rest } := step_of_pending hp
      _ = .next (hardReset { s with pending := rest }) := serveInput_of_isReset rfl _
      _ = step { s with pending := .reset :: rest } := rfl
  · intro t ht
    obtain ⟨-, -, hnone⟩ := oneResponsePerAccess s t (.resetDuring a) rest hp ht
    exact hnone rfl

/-- Settles O32: `softReset`, which the command completes, and `hardReset` write the same values to every field but `K`
and the counter of draws. -/
theorem resetCommandMatchesResetInput : Obligations.ResetCommandMatchesResetInput := fun s =>
  ⟨complete (softReset s), hardReset s, rfl, rfl, rfl, rfl⟩

/-! ### Batches that end with all four flags 0 -/

theorem anyFlag_eq_false_iff {s : State} :
    s.anyFlag = false ↔
      s.E_INVKEY = false ∧ s.E_NOTKEYED = false ∧ s.E_ILLCMD = false ∧ s.E_BUS = false := by
  simp [State.anyFlag, and_assoc]

/-- Raising an error leaves its flag set (R201). -/
@[simp] theorem anyFlag_raiseError (e : CommandError) (s : State) : (raiseError e s).anyFlag = true := by
  cases e <;> simp [State.anyFlag]

/-- A refused access leaves `E_BUS` set (R206). -/
@[simp] theorem anyFlag_refuseAccess (s : State) : (refuseAccess s).anyFlag = true := by
  simp [State.anyFlag]

@[simp] theorem anyFlag_respond (r : Response) (s : State) : (respond r s).anyFlag = s.anyFlag := rfl

/-- Flags that are 0 after an access that clears none were 0 before it (R30). -/
theorem anyFlag_before_serve {a : Access} {s t : State} (h : serve a s = .next t)
    (hkeep : (Input.access a).clearsFlags = false) (ht : t.anyFlag = false) : s.anyFlag = false := by
  obtain ⟨hinv, hnot, hill, hbus⟩ := serve_keeps_flags h hkeep
  rw [anyFlag_eq_false_iff] at ht ⊢
  simp only [Bool.eq_false_iff] at ht ⊢
  exact ht.imp (mt hinv) (.imp (mt hnot) (.imp (mt hill) (mt hbus)))

/-- An access that ends with all four flags 0 is an accepted read, or the write of a command that ended with code `OK`:
the other answers of `serve_cases` each leave a flag set. -/
theorem serve_clean_cases {a : Access} {s t : State} (h : serve a s = .next t) (ht : t.anyFlag = false) :
    (∃ off size v, a = .read off size ∧ a.accepted = true ∧ t = respond { rdata := v, err := false } s) ∨
    (∃ off size w i u, a = .write off size w ∧ a.accepted = true ∧ decode w = .ok i ∧ u.LASTRES = 0 ∧
      u.responses = s.responses ∧ t = respond { rdata := 0, err := false } u) := by
  rcases serve_cases h with ⟨off, size, r, rfl, hr, rfl⟩ | ⟨-, rfl⟩ | ⟨off, size, w, i, u, rfl, hw, hi, hu, rfl⟩ |
    ⟨off, size, w, e, -, -, -, rfl⟩
  · exact .inl ⟨off, size, _, rfl, by simp [Access.accepted, hr], rfl⟩
  · simp at ht
  · obtain ⟨-, hresponses, -⟩ := exec_bus hu
    have hok : u.LASTRES = 0 := by
      rcases exec_completes_or_raises hu with ⟨hok, -⟩ | ⟨-, -, rfl⟩ | ⟨-, -, rfl⟩
      · exact hok
      · simp at ht
      · simp at ht
    exact .inr ⟨off, size, w, i, u, rfl, hw, hi, hok, hresponses, rfl⟩
  · simp at ht

/-- The accesses `l`, served from `s` to `u`, had no error (R240): what O39 says of them, with the result code as an
invariant of the accesses that are no commands. -/
structure CleanBatch (l : List Access) (s u : State) : Prop where
  flags_before : s.anyFlag = false
  legal : ∀ a ∈ l, a.accepted = true ∧ ∀ off size w, a = .write off size w → ∃ i, decode w = .ok i
  responses : ∃ m, u.responses = s.responses ++ m ∧ ∀ r ∈ m, r.err = false
  lastres : s.LASTRES = 0 ∨ (∃ off size w, Access.write off size w ∈ l) → u.LASTRES = 0

theorem CleanBatch.nil {s : State} (hs : s.anyFlag = false) : CleanBatch [] s s where
  flags_before := hs
  legal := by simp
  responses := ⟨[], by simp⟩
  lastres := by simp

/-- One access that clears no flag and ends with all four flags 0. -/
theorem CleanBatch.singleton {a : Access} {s t : State} (h : serve a s = .next t)
    (hkeep : (Input.access a).clearsFlags = false) (ht : t.anyFlag = false) : CleanBatch [a] s t := by
  have hs : s.anyFlag = false := anyFlag_before_serve h hkeep ht
  rcases serve_clean_cases h ht with ⟨off, size, v, rfl, ha, rfl⟩ | ⟨off, size, w, i, u, rfl, ha, hi, hok, hresp, rfl⟩
  · exact ⟨hs, by simp [ha], ⟨[⟨v, false⟩], rfl, by simp⟩, by simp⟩
  · exact ⟨hs, by simp [ha, hi], ⟨[⟨0, false⟩], by simp [hresp], by simp⟩, fun _ => hok⟩

theorem CleanBatch.append {l m : List Access} {s t u : State} (hl : CleanBatch l s t) (hm : CleanBatch m t u) :
    CleanBatch (l ++ m) s u where
  flags_before := hl.flags_before
  legal a ha := (List.mem_append.1 ha).elim (hl.legal a) (hm.legal a)
  responses := by
    obtain ⟨rl, hrl, hokl⟩ := hl.responses
    obtain ⟨rm, hrm, hokm⟩ := hm.responses
    exact ⟨rl ++ rm, by rw [hrm, hrl, List.append_assoc], fun r hr => (List.mem_append.1 hr).elim (hokl r) (hokm r)⟩
  lastres := by
    rintro (hs | ⟨off, size, w, hw⟩)
    · exact hm.lastres (.inl (hl.lastres (.inl hs)))
    · rcases List.mem_append.1 hw with hw | hw
      · exact hm.lastres (.inl (hl.lastres (.inr ⟨off, size, w, hw⟩)))
      · exact hm.lastres (.inr ⟨off, size, w, hw⟩)

/-- By induction on the accesses: the flags are 0 at the end, so 0 before the last accesses, and so on to the first. -/
theorem cleanBatch_of_serveAll {l : List Access} {s u : State} (hkeep : ∀ a ∈ l, (Input.access a).clearsFlags = false)
    (h : serveAll l s = .next u) (hu : u.anyFlag = false) : CleanBatch l s u := by
  induction l generalizing s with
  | nil =>
    obtain rfl : s = u := Host.Outcome.next.inj h
    exact .nil hu
  | cons a l ih =>
    obtain ⟨t, ht⟩ := serve_next a s
    rw [serveAll_cons ht] at h
    have hrest : CleanBatch l t u := ih (fun b hb => hkeep b (List.mem_cons_of_mem a hb)) h
    exact (CleanBatch.singleton ht (hkeep a List.mem_cons_self) hrest.flags_before).append hrest

/-- Settles O39: such a list is a `CleanBatch`, whose responses are those after the ones given before it. -/
theorem cleanFlagsMeanCleanBatch : Obligations.CleanFlagsMeanCleanBatch := by
  intro l s u hkeep h hu
  obtain ⟨hs, hlegal, ⟨m, hm, hok⟩, hlastres⟩ := cleanBatch_of_serveAll hkeep h hu
  refine ⟨hs, hlegal, ?_, fun hwrite => hlastres (.inr hwrite)⟩
  rwa [hm, List.drop_left]

end Sys2Proof.Machine
end
